-- ==== Sys2Proof/Word.lean ====
section
/-! DEFINITION. The word types of the block (00_scope.md R10, 30_encoding.md R80 to R82, R87). Every byte is
unsigned, and the only arithmetic on these words is comparison, masking and taking bits. -/

namespace Sys2Proof

/-- One byte of the stream: an unsigned 8-bit value, bit 7 most significant (00_scope.md R10). -/
abbrev Byte := BitVec 8

/-- A 5-bit internal code: a symbol, a Movement State or an Actuator command (30_encoding.md R80 to R82). -/
abbrev Code := BitVec 5

/-- The port-event vector, bit 10 to bit 0: rst, rx_flush, rx_fire, rx_data[7:0] (30_encoding.md R87). -/
abbrev EventVector := BitVec 11

end Sys2Proof
end

