-- ==== Sys2Proof/Config.lean ====
section
/-! DEFINITION. The parameters the spec leaves open (00_scope.md R9, 92_eei_decisions.md D15 to D17). The
operations take them as one argument of type `Params`, so that the spec's illustrative numbers can be tried; the
machine itself runs with `Config.params`, whose values nothing can see (log entry 5). -/

namespace Sys2Proof

/-- What the opposite channel of a spin does: driven backward, or stopped (42_actuator.md R179, R180; D15). -/
inductive SpinMode where
  | counterRotate
  | pivot
  deriving DecidableEq, Repr, Inhabited

/-- The open parameters of 00_scope.md R9 that a rule of the block reads. -/
structure Params where
  /-- `MAX_DUTY`, an integer of at least 1. -/
  maxDuty : Nat
  /-- `CRUISE_DUTY`, any integer; it is clamped when applied. -/
  cruiseDuty : Int
  /-- `BURST_TIME`, a positive duration, in a unit the spec does not name (log entry 16). -/
  burstTime : Nat
  /-- `BURST_TICKS`, an integer of at least 1: the burst in clock periods. -/
  burstTicks : Nat
  /-- `SPIN_MODE`. -/
  spinMode : SpinMode
  deriving DecidableEq, Repr

namespace Config

/-- `MAX_DUTY` less 1; open, so it has no value here (D16). -/
opaque maxDutyLess1 : Nat
/-- `CRUISE_DUTY`; open (D16). -/
opaque cruiseDuty : Int
/-- `BURST_TIME` less 1; open (D17). -/
opaque burstTimeLess1 : Nat
/-- `BURST_TICKS` less 1; open (D17). -/
opaque burstTicksLess1 : Nat
/-- `SPIN_MODE`; open (D15). -/
opaque spinMode : SpinMode

/-- The parameters of this machine, within the constraints of 00_scope.md R9 and otherwise unknown. -/
def params : Params where
  maxDuty := maxDutyLess1 + 1
  cruiseDuty := cruiseDuty
  burstTime := burstTimeLess1 + 1
  burstTicks := burstTicksLess1 + 1
  spinMode := spinMode

end Config

end Sys2Proof
end

