-- ==== Sys2Proof/Syntax.lean ====
section
/-! DEFINITION. The names of the block: command symbols, Movement States, Actuator primitives, motor channels and
pins; the instruction type with one constructor for each row of spec/opcode_table.json; the raw words an
instruction is read from; and the inputs the environment can present. -/

namespace Sys2Proof

/-- The six command symbols, the Codec's output alphabet (00_scope.md R12, 30_encoding.md R73). `rep` is Repeat,
"an instruction to re-assert the previously held state". -/
inductive Symbol where
  | rep
  | forward
  | backward
  | left
  | right
  | stop
  deriving DecidableEq, Repr

/-- The five Movement States (41_motion_fsm.md R141, R156); Repeat is not one. -/
inductive Movement where
  | forward
  | backward
  | left
  | right
  | stop
  deriving DecidableEq, Repr

/-- The four moving composed primitives, the values `burst_cmd` takes (10_state.md R20, R25). -/
inductive Moving where
  | forward
  | backward
  | spinLeft
  | spinRight
  deriving DecidableEq, Repr

/-- The five composed primitives of the Actuator (42_actuator.md R170). -/
inductive Primitive where
  | move (m : Moving)
  | stop
  deriving DecidableEq, Repr

/-- The two motor channels (00_scope.md R12). -/
inductive Channel where
  | a
  | b
  deriving DecidableEq, Repr

/-- The four duty outputs: forward and backward polarity pin of channel A and of channel B (10_state.md R24). -/
inductive Pin where
  | af
  | ab
  | bf
  | bb
  deriving DecidableEq, Repr

/-- The instruction set: the 14 rows of spec/opcode_table.json in the table's order (00_scope.md R7,
30_encoding.md R87). `repeatHeld` is the row REPEAT. -/
inductive Instr where
  | repeatHeld
  | forward
  | backward
  | left
  | right
  | stop
  | pForward
  | pBackward
  | pSpinLeft
  | pSpinRight
  | pStop
  | reset
  | flush
  | rxbyte (b : Byte)
  deriving DecidableEq, Repr

/-- A raw word, as the interface it arrives on carries it: the bytes of a candidate frame in arrival order, the
five bits of `act_cmd`, or the port-event vector (30_encoding.md R70, R82, R87). -/
inductive Raw where
  | frame (bytes : List Byte)
  | act (code : Code)
  | port (event : EventVector)
  deriving DecidableEq, Repr

/-- A per-channel primitive with its duty request, any integer (42_actuator.md R173 to R175). -/
inductive ChannelCall where
  | forward (c : Channel) (d : Int)
  | backward (c : Channel) (d : Int)
  | stop (c : Channel)
  deriving DecidableEq, Repr

/-- What drives the block in one clock cycle (10_state.md R32): the byte interface of the assembled block, or
`sym_in` "in place of the Codec's outputs", or `act_cmd` of an Actuator used alone (42_actuator.md R188). -/
inductive Drive where
  | codec (rxValid : Bool) (rxData : Byte) (rxFlush : Bool)
  | symIn (valid : Bool) (code : Code)
  | actIn (valid : Bool) (code : Code)
  deriving DecidableEq, Repr

/-- The input ports sampled in one clock cycle (10_state.md R32). -/
structure Pins where
  rst : Bool
  drive : Drive
  deriving DecidableEq, Repr

/-- One input of the environment (10_state.md R34, log entries 1, 3 and 13). All but `clock` are of the event
level; `clock` is one clock cycle of the cycle level (00_scope.md R6). -/
inductive Input where
  /-- a port event of the event level (30_encoding.md R87) -/
  | port (event : EventVector)
  /-- one poll's buffer snapshot, the operand of POLL (43_top_loop.md R200) -/
  | snapshot (buf : List Byte)
  /-- a command code presented to the Actuator alone (42_actuator.md R188) -/
  | actuator (code : Code)
  /-- a symbol code presented to the state machine alone (41_motion_fsm.md R153) -/
  | symbol (code : Code)
  /-- a per-channel primitive called alone (60_exceptions.md R223) -/
  | channel (call : ChannelCall)
  /-- a composed primitive called alone with a cruising duty of its own (42_actuator.md R170) -/
  | composed (p : Primitive) (d : Int)
  /-- one clock cycle -/
  | clock (pins : Pins)
  deriving DecidableEq, Repr

/-- The instruction a frame with this symbol stands for (30_encoding.md R73). -/
def Instr.ofSymbol : Symbol → Instr
  | .rep => .repeatHeld
  | .forward => .forward
  | .backward => .backward
  | .left => .left
  | .right => .right
  | .stop => .stop

/-- The instruction an Actuator command stands for (30_encoding.md R82). -/
def Instr.ofPrimitive : Primitive → Instr
  | .move .forward => .pForward
  | .move .backward => .pBackward
  | .move .spinLeft => .pSpinLeft
  | .move .spinRight => .pSpinRight
  | .stop => .pStop

/-- The interface a raw word arrives on, as an input of the environment: a frame arrives as the whole of one
poll's snapshot (log entry 13). -/
def Raw.toInput : Raw → Input
  | .frame bytes => .snapshot bytes
  | .act code => .actuator code
  | .port event => .port event

end Sys2Proof
end

