-- ==== Sys2Proof/WellFormed.lean ====
section
/-! DEFINITION. Well-formedness: of the parameters (00_scope.md R9), of a raw word (30_encoding.md R79) and of an
instruction. -/

namespace Sys2Proof

/-- The constraints 00_scope.md R9 puts on the parameters: `MAX_DUTY` and `BURST_TICKS` at least 1, `BURST_TIME`
positive; `CRUISE_DUTY` and `SPIN_MODE` are free (42_actuator.md R189). -/
def Params.wf (p : Params) : Bool :=
  decide (1 ≤ p.maxDuty) && decide (1 ≤ p.burstTime) && decide (1 ≤ p.burstTicks)

/-- A raw word has its interface's length; only a frame could have another: "it is always 8"
(30_encoding.md R79). -/
def Raw.wf : Raw → Bool
  | .frame bytes => bytes.length == 8
  | .act _ => true
  | .port _ => true

/-- Every instruction is well formed: only RXBYTE has an operand, and every byte value is one
(40_frame_codec.md R108). One arm per constructor, so that a new operand needs a new check. -/
def Instr.wf : Instr → Bool
  | .repeatHeld => true
  | .forward => true
  | .backward => true
  | .left => true
  | .right => true
  | .stop => true
  | .pForward => true
  | .pBackward => true
  | .pSpinLeft => true
  | .pSpinRight => true
  | .pStop => true
  | .reset => true
  | .flush => true
  | .rxbyte _ => true

end Sys2Proof
end

