-- ==== Sys2Proof/Decode.lean ====
section
/-! DEFINITION. The encodings of 30_encoding.md and the decoder of a raw word, total and rejecting by name; after it
the encoder. The scan of a byte stream is Machine/Codec.lean. -/

namespace Sys2Proof

/-! ## The frame (30_encoding.md R70 to R75) -/

/-- `LEAD`, the header's leading byte. -/
def LEAD : Byte := 0xFF#8

/-- `HEADER`, frame offsets 0 to 5 (R71). -/
def HEADER : List Byte := [0xFF#8, 0x01#8, 0x01#8, 0x01#8, 0x02#8, 0x00#8]

/-- `TAIL`, frame offset 7 (R72). -/
def TAIL : Byte := 0x00#8

/-- `FRAME_LEN`, the bytes of a frame. -/
def FRAME_LEN : Nat := 8

/-- `DIR_OFF`, the frame offset of the direction code. -/
def DIR_OFF : Nat := 6

/-- `TAIL_OFF`, the frame offset of the tail. -/
def TAIL_OFF : Nat := 7

/-- The direction code of a symbol, the whole byte at offset 6 (R73). -/
def Symbol.dirCode : Symbol → Byte
  | .rep => 0x00#8
  | .forward => 0x01#8
  | .backward => 0x02#8
  | .left => 0x04#8
  | .right => 0x08#8
  | .stop => 0x10#8

/-- `map`, the closed mapping of direction codes to symbols: none outside `CODES`, where it is "undefined
(rejecting)" (R73, R75). -/
def mapDir (c : Byte) : Option Symbol :=
  if c = 0x00#8 then some .rep
  else if c = 0x01#8 then some .forward
  else if c = 0x02#8 then some .backward
  else if c = 0x04#8 then some .left
  else if c = 0x08#8 then some .right
  else if c = 0x10#8 then some .stop
  else none

/-- The frame of a symbol, `HEADER ++ [code(X), TAIL]` (R83). -/
def frameOf (s : Symbol) : List Byte :=
  HEADER ++ [s.dirCode, TAIL]

/-- `valid(f)`: the four conjuncts of R74, tested together. -/
def validFrame (f : List Byte) : Bool :=
  f.length == FRAME_LEN && f.take 6 == HEADER && f[TAIL_OFF]? == some TAIL
    && (f[DIR_OFF]?.bind mapDir).isSome

/-- The symbol of a valid frame, `map(f[6])`, and none of any other sequence (R74, R75). -/
def frameSymbol? (f : List Byte) : Option Symbol :=
  if validFrame f then f[DIR_OFF]?.bind mapDir else none

/-! ## Internal codes (30_encoding.md R80 to R82) -/

/-- The symbol code, on `sym` and `sym_in` (R80). -/
def Symbol.code : Symbol → Code
  | .rep => 0b00000#5
  | .forward => 0b00001#5
  | .backward => 0b00010#5
  | .left => 0b00100#5
  | .right => 0b01000#5
  | .stop => 0b10000#5

/-- The symbol of a legal symbol code; the other 26 codes are illegal (R80). -/
def symbolOfCode? (c : Code) : Option Symbol :=
  if c = 0b00000#5 then some .rep
  else if c = 0b00001#5 then some .forward
  else if c = 0b00010#5 then some .backward
  else if c = 0b00100#5 then some .left
  else if c = 0b01000#5 then some .right
  else if c = 0b10000#5 then some .stop
  else none

/-- The Movement State code, in `mstate` and on `state` (R81). -/
def Movement.code : Movement → Code
  | .forward => 0b00001#5
  | .backward => 0b00010#5
  | .left => 0b00100#5
  | .right => 0b01000#5
  | .stop => 0b10000#5

/-- The Movement State of a code; `00000` is not a state (R81). -/
def movementOfCode? (c : Code) : Option Movement :=
  if c = 0b00001#5 then some .forward
  else if c = 0b00010#5 then some .backward
  else if c = 0b00100#5 then some .left
  else if c = 0b01000#5 then some .right
  else if c = 0b10000#5 then some .stop
  else none

/-- The Actuator command code, on `act_cmd` (R82). -/
def Primitive.code : Primitive → Code
  | .move .forward => 0b00001#5
  | .move .backward => 0b00010#5
  | .move .spinLeft => 0b00100#5
  | .move .spinRight => 0b01000#5
  | .stop => 0b10000#5

/-- The primitive of a legal Actuator command code (R82). -/
def primitiveOfCode? (c : Code) : Option Primitive :=
  if c = 0b00001#5 then some (.move .forward)
  else if c = 0b00010#5 then some (.move .backward)
  else if c = 0b00100#5 then some (.move .spinLeft)
  else if c = 0b01000#5 then some (.move .spinRight)
  else if c = 0b10000#5 then some .stop
  else none

/-! ## The decoder -/

/-- Why a raw word is no instruction. The three classes of an invalid candidate are named for the reader only: they
"all behave the same" (30_encoding.md R77). -/
inductive Reject where
  /-- not eight bytes: class (iv) of R77 -/
  | frameLength
  /-- offsets 0 to 5 differ from `HEADER`: class (i) -/
  | header
  /-- offset 7 is not `TAIL`: class (ii) -/
  | tail
  /-- offset 6 is outside `CODES`: class (iii) -/
  | unknownCode
  /-- `act_cmd` is none of the five one-hot codes (R82) -/
  | notActuatorCommand
  /-- `e[10:8]` is 000, "no event" (R87) -/
  | noEvent
  deriving DecidableEq, Repr

/-- The symbol of a candidate frame, or why it is invalid (R74, R77). -/
def decodeFrame (f : List Byte) : Except Reject Symbol :=
  if f.length ≠ FRAME_LEN then .error .frameLength
  else if f.take 6 ≠ HEADER then .error .header
  else if f[TAIL_OFF]? ≠ some TAIL then .error .tail
  else
    match f[DIR_OFF]?.bind mapDir with
    | some s => .ok s
    | none => .error .unknownCode

/-- The event of a port-event vector, by the match and mask of its row in spec/opcode_table.json; RESET before FLUSH
before RXBYTE (R87). The mask of FLUSH is 0x600: bit 8 is "not part of the mask" there, and 0 on the ports. -/
def decodePort (e : EventVector) : Except Reject Instr :=
  if e &&& 0x400#11 = 0x400#11 then .ok .reset
  else if e &&& 0x600#11 = 0x200#11 then .ok .flush
  else if e &&& 0x700#11 = 0x100#11 then .ok (.rxbyte (e.extractLsb' 0 8))
  else .error .noEvent

/-- The instruction of a raw word, total, rejecting by name. -/
def decodeInstr : Raw → Except Reject Instr
  | .frame f =>
    match decodeFrame f with
    | .ok s => .ok (Instr.ofSymbol s)
    | .error r => .error r
  | .act c =>
    match primitiveOfCode? c with
    | some p => .ok (Instr.ofPrimitive p)
    | none => .error .notActuatorCommand
  | .port e => decodePort e

/-- The eight bytes of the 64-bit view of a frame, the first to arrive most significant (R76). -/
def bytesOfView (w : Nat) : List Byte :=
  [BitVec.ofNat 8 (w / 2 ^ 56), BitVec.ofNat 8 (w / 2 ^ 48), BitVec.ofNat 8 (w / 2 ^ 40),
   BitVec.ofNat 8 (w / 2 ^ 32), BitVec.ofNat 8 (w / 2 ^ 24), BitVec.ofNat 8 (w / 2 ^ 16),
   BitVec.ofNat 8 (w / 2 ^ 8), BitVec.ofNat 8 w]

/-- The raw word of a number as spec/opcode_table.json numbers the row's bits: 64 bits are a frame, up to 8 bits an
Actuator command of 5 bits, up to 16 bits an event vector of 11 bits. The widths but a frame's (R76) are DEDUCED, safe
(log entry 12). -/
def rawOfTableWord (nbits w : Nat) : Option Raw :=
  if nbits = 64 then
    if w < 2 ^ 64 then some (.frame (bytesOfView w)) else none
  else if nbits ≤ 8 then
    if w < 2 ^ 5 then some (.act (BitVec.ofNat 5 w)) else none
  else if nbits ≤ 16 then
    if w < 2 ^ 11 then some (.port (BitVec.ofNat 11 w)) else none
  else none

/-- The instruction the decoder reads from a table word. -/
def decodeTableWord (nbits w : Nat) : Option Instr :=
  match rawOfTableWord nbits w with
  | none => none
  | some r =>
    match decodeInstr r with
    | .ok i => some i
    | .error _ => none

/-! ## The encoder -/

/-- The event vector of an accepted byte, `001bbbbbbbb` (R87). -/
def rxEvent (b : Byte) : EventVector :=
  0x100#11 ||| b.setWidth 11

/-- The raw word of an instruction, from the tables of R83, R82 and R87; ignored bits of an event are written 0
(log entry 15). -/
def encode : Instr → Raw
  | .repeatHeld => .frame (frameOf .rep)
  | .forward => .frame (frameOf .forward)
  | .backward => .frame (frameOf .backward)
  | .left => .frame (frameOf .left)
  | .right => .frame (frameOf .right)
  | .stop => .frame (frameOf .stop)
  | .pForward => .act (Primitive.move .forward).code
  | .pBackward => .act (Primitive.move .backward).code
  | .pSpinLeft => .act (Primitive.move .spinLeft).code
  | .pSpinRight => .act (Primitive.move .spinRight).code
  | .pStop => .act Primitive.stop.code
  | .reset => .port 0x400#11
  | .flush => .port 0x200#11
  | .rxbyte b => .port (rxEvent b)

end Sys2Proof
end

