-- ==== Sys2Proof/Machine/State.lean ====
section
/-! DEFINITION. The state of the block (10_state.md R20, whole) with the model's own two fields, the reasons a step
could stop, and the state after reset (10_state.md R36, 70_reset_and_hazards.md R250). -/

namespace Sys2Proof.Machine

/-- The reasons a step stops with a fault: there are none. The block's one fault, the unknown-symbol assertion, is
the sticky bit `State.fault`, with which the machine goes on (41_motion_fsm.md R153, 60_exceptions.md R224, R227);
"No input makes the machine halt" (41_motion_fsm.md R141). Log entry 11; safe. -/
inductive Fault where
  deriving DecidableEq, Repr

/-- The reasons a step refuses. -/
inductive Refusal where
  /-- An instruction that has no meaning yet, raised by `exec`'s arm; no arm raises it now. Safe. -/
  | notModelled (mnemonic : String)
  deriving DecidableEq, Repr

/-- The window `W[0..7]`, the last eight bytes accepted, `w0` the oldest (10_state.md R21). -/
structure Window where
  w0 : Byte
  w1 : Byte
  w2 : Byte
  w3 : Byte
  w4 : Byte
  w5 : Byte
  w6 : Byte
  w7 : Byte
  deriving DecidableEq, Repr

/-- The four duty registers (10_state.md R24). -/
structure Duties where
  af : Nat
  ab : Nat
  bf : Nat
  bb : Nat
  deriving DecidableEq, Repr

/-- The output ports in one clock cycle (10_state.md R32). `sym` is `sym` under `sym_valid`, and `actCmd` is
`act_cmd` under `act_valid`: where the strobe is 0 there is none (93_implementation_defined.md U15, log entry 14). -/
structure Outputs where
  rxReady : Bool
  sym : Option Code
  changed : Bool
  actCmd : Option Code
  state : Code
  fault : Bool
  busy : Bool
  duty : Duties
  deriving DecidableEq, Repr

/-- One observation of a run (43_top_loop.md R206). -/
inductive Obs where
  /-- a composed primitive is called: `act_valid` with its `act_cmd` -/
  | call (p : Primitive)
  /-- one duty-register write -/
  | write (pin : Pin) (v : Nat)
  /-- the four duty registers written at once: by RESET, and by each phase of a primitive that is one clock edge
  (70_reset_and_hazards.md R250, 42_actuator.md R187; log entry 22) -/
  | writeAll (d : Duties)
  /-- the `wait BURST_TIME` between phase 1 and phase 2 of a moving primitive -/
  | wait (d : Nat)
  /-- one `apply` completed: the symbol, and the boolean it returned (`changed`) -/
  | applied (s : Symbol) (changed : Bool)
  /-- `raise AssertUnknownSymbol(code)` (60_exceptions.md R224); R206 lists no such observable, so that the raise is shown
  is the model's choice (log entry 23) -/
  | assertUnknownSymbol (code : Code)
  /-- the ports during one clock cycle of the cycle level -/
  | cycle (o : Outputs)
  deriving DecidableEq, Repr

/-- The state of the block: the registers of 10_state.md R20, then the model's own `input` and `trace` (log entries
1 and 2). -/
@[ext]
structure State where
  /-- `W[0..7]` (R21) -/
  window : Window
  /-- `fill`, 0 to 8 (R22) -/
  fill : Fin 9
  /-- `mstate` (R23) -/
  mstate : Movement
  /-- `fault`, sticky (R26) -/
  fault : Bool
  /-- `duty[AF]`, `duty[AB]`, `duty[BF]`, `duty[BB]` (R24) -/
  duty : Duties
  /-- `burst_cnt` (R25) -/
  burstCnt : Nat
  /-- `burst_cmd` (R25) -/
  burstCmd : Moving
  /-- MODEL'S OWN: the environment's pending inputs, the next one first (log entry 1) -/
  input : List Input
  /-- MODEL'S OWN: the observations so far, the oldest first; nothing reads it (log entry 2) -/
  trace : List Obs
  deriving DecidableEq, Repr

/-- The state after reset: 10_state.md R20 and R36, with no input pending and nothing observed. -/
def State.reset : State where
  window := ⟨0x00#8, 0x00#8, 0x00#8, 0x00#8, 0x00#8, 0x00#8, 0x00#8, 0x00#8⟩
  fill := 0
  mstate := .stop
  fault := false
  duty := ⟨0, 0, 0, 0⟩
  burstCnt := 0
  burstCmd := .forward
  input := []
  trace := []

end Sys2Proof.Machine
end

