-- ==== Sys2Proof/Machine/Operands.lean ====
section
/-! DEFINITION. The operand forms: the window as eight bytes, the duty request and its clamp, the pins of a channel,
the write lists of the Actuator's primitives and the duties they end in, and the primitive of a Movement State. -/

namespace Sys2Proof.Machine

/-! ## The window (10_state.md R21, R22) -/

/-- The window in arrival order, `W[0]` first. -/
def Window.toList (w : Window) : List Byte :=
  [w.w0, w.w1, w.w2, w.w3, w.w4, w.w5, w.w6, w.w7]

/-- The window shifted one place toward index 0, with the new byte at `W[7]`. -/
def Window.shift (w : Window) (b : Byte) : Window :=
  ⟨w.w1, w.w2, w.w3, w.w4, w.w5, w.w6, w.w7, b⟩

/-- `min(fill + 1, 8)`. -/
def fillSucc (f : Fin 9) : Fin 9 :=
  ⟨min (f.val + 1) 8, by omega⟩

/-! ## Duties (42_actuator.md R171 to R175) -/

/-- CLAMP: a duty request, any integer, brought into 0 to `MAX_DUTY`; never rejected (R172). -/
def clamp (p : Params) (v : Int) : Nat :=
  if v < 0 then 0 else if v > (p.maxDuty : Int) then p.maxDuty else v.toNat

/-- The value of one duty register. -/
def Duties.get (d : Duties) : Pin → Nat
  | .af => d.af
  | .ab => d.ab
  | .bf => d.bf
  | .bb => d.bb

/-- One duty register written. -/
def Duties.set (d : Duties) (pin : Pin) (v : Nat) : Duties :=
  match pin with
  | .af => ⟨v, d.ab, d.bf, d.bb⟩
  | .ab => ⟨d.af, v, d.bf, d.bb⟩
  | .bf => ⟨d.af, d.ab, v, d.bb⟩
  | .bb => ⟨d.af, d.ab, d.bf, v⟩

/-- `XF`, the forward pin of a channel. -/
def fwdPin : Channel → Pin
  | .a => .af
  | .b => .bf

/-- `XB`, the backward pin of a channel. -/
def bwdPin : Channel → Pin
  | .a => .ab
  | .b => .bb

/-- One duty-register write. -/
abbrev PinWrite := Pin × Nat

/-- CHX_FORWARD: the backward pin to 0 first, then the forward pin (R173). -/
def chForward (p : Params) (c : Channel) (d : Int) : List PinWrite :=
  [(bwdPin c, 0), (fwdPin c, clamp p d)]

/-- CHX_BACKWARD: the forward pin to 0 first, then the backward pin (R174). -/
def chBackward (p : Params) (c : Channel) (d : Int) : List PinWrite :=
  [(fwdPin c, 0), (bwdPin c, clamp p d)]

/-- CHX_STOP: the forward pin to 0, then the backward pin (R175). -/
def chStop (c : Channel) : List PinWrite :=
  [(fwdPin c, 0), (bwdPin c, 0)]

/-- The writes of a per-channel primitive. -/
def channelWrites (p : Params) : ChannelCall → List PinWrite
  | .forward c d => chForward p c d
  | .backward c d => chBackward p c d
  | .stop c => chStop c

/-! ## Composed primitives (42_actuator.md R176 to R181) -/

/-- What a moving primitive does with a channel: drives it forward or backward, or, in a `PIVOT` spin, leaves it
stopped (R176). -/
inductive Role where
  | forward
  | backward
  | stopped
  deriving DecidableEq, Repr

/-- `drive_A` of a moving primitive (R177 to R180). -/
def roleA (mode : SpinMode) : Moving → Role
  | .forward => .forward
  | .backward => .backward
  | .spinLeft =>
    match mode with
    | .counterRotate => .backward
    | .pivot => .stopped
  | .spinRight => .forward

/-- `drive_B` of a moving primitive (R177 to R180). -/
def roleB (mode : SpinMode) : Moving → Role
  | .forward => .forward
  | .backward => .backward
  | .spinLeft => .forward
  | .spinRight =>
    match mode with
    | .counterRotate => .backward
    | .pivot => .stopped

/-- A channel's writes in phase 1, the burst: at `MAX_DUTY`, or `chX_stop()` for a channel not driven (R176). -/
def burstWrites (p : Params) (c : Channel) : Role → List PinWrite
  | .forward => chForward p c p.maxDuty
  | .backward => chBackward p c p.maxDuty
  | .stopped => chStop c

/-- A channel's writes in phase 2, the drop to duty `d`: a channel not driven is not touched (R176). -/
def cruiseWrites (p : Params) (c : Channel) (d : Int) : Role → List PinWrite
  | .forward => chForward p c d
  | .backward => chBackward p c d
  | .stopped => []

/-- Phase 1 of a moving primitive: channel A, then channel B (R176). -/
def phase1 (p : Params) (m : Moving) : List PinWrite :=
  burstWrites p .a (roleA p.spinMode m) ++ burstWrites p .b (roleB p.spinMode m)

/-- Phase 2 of a moving primitive with cruising duty `d` (R176). -/
def phase2 (p : Params) (m : Moving) (d : Int) : List PinWrite :=
  cruiseWrites p .a d (roleA p.spinMode m) ++ cruiseWrites p .b d (roleB p.spinMode m)

/-- The writes of `stop()`: `chA_stop()`, then `chB_stop()` (R181). -/
def stopWrites : List PinWrite :=
  chStop .a ++ chStop .b

/-- The table of R185 with `c` for the duty of a driven pin. -/
def dutyRow (mode : SpinMode) (c : Nat) : Primitive → Duties
  | .move .forward => ⟨c, 0, c, 0⟩
  | .move .backward => ⟨0, c, 0, c⟩
  | .move .spinLeft =>
    match mode with
    | .counterRotate => ⟨0, c, c, 0⟩
    | .pivot => ⟨0, 0, c, 0⟩
  | .move .spinRight =>
    match mode with
    | .counterRotate => ⟨c, 0, 0, c⟩
    | .pivot => ⟨c, 0, 0, 0⟩
  | .stop => ⟨0, 0, 0, 0⟩

/-- `cruise_duties(P)` (R185). -/
def cruiseDuties (p : Params) (prim : Primitive) : Duties :=
  dutyRow p.spinMode (clamp p p.cruiseDuty) prim

/-- `burst_duties(P)`: the same pins at `MAX_DUTY` (R185). -/
def burstDuties (p : Params) (prim : Primitive) : Duties :=
  dutyRow p.spinMode p.maxDuty prim

/-! ## Symbols and states (41_motion_fsm.md R142, R143) -/

/-- The Movement State a symbol asks for; Repeat asks for none. -/
def target : Symbol → Option Movement
  | .rep => none
  | .forward => some .forward
  | .backward => some .backward
  | .left => some .left
  | .right => some .right
  | .stop => some .stop

/-- `prim(m)`, the Actuator's matching composed primitive (R142). -/
def prim : Movement → Primitive
  | .forward => .move .forward
  | .backward => .move .backward
  | .left => .move .spinLeft
  | .right => .move .spinRight
  | .stop => .stop

end Sys2Proof.Machine
end

