-- ==== Sys2Proof/Machine/Codec.lean ====
section
/-! DEFINITION. The Frame Codec twice (40_frame_codec.md): the reference function `decode` over a buffer snapshot
(Part A), and one accepted byte of the streaming realisation (Part B). -/

namespace Sys2Proof.Machine

/-! ## Part A: `decode` (R100 to R107) -/

/-- `MemRead(pos, n)`, the bytes `buf[pos .. pos+n)` (00_scope.md R11). -/
def memRead (buf : List Byte) (pos n : Nat) : List Byte :=
  (buf.drop pos).take n

/-- What one turn of the scan finds at `pos`. -/
inductive ScanArm where
  /-- `pos` has reached `len(buf)` -/
  | exhausted
  /-- SKIP, the byte is not `LEAD` (R102) -/
  | skip
  /-- INCOMPLETE, fewer than 8 bytes remain (R103) -/
  | incomplete
  /-- ACCEPT, the candidate is valid (R104) -/
  | accept (s : Symbol)
  /-- RESYNC, the candidate is not valid (R105) -/
  | resync
  deriving DecidableEq, Repr

/-- The arm of the scan at `pos` (R101). -/
def scanArm (buf : List Byte) (pos : Nat) : ScanArm :=
  match buf[pos]? with
  | none => .exhausted
  | some b =>
    if b ≠ LEAD then .skip
    else if buf.length - pos < FRAME_LEN then .incomplete
    else
      match frameSymbol? (memRead buf pos FRAME_LEN) with
      | some s => .accept s
      | none => .resync

/-- The scan from `pos`, at most `fuel` turns (R101): a skipped byte and a rejected candidate cost one byte, an
accepted frame eight. -/
def scan : Nat → List Byte → Nat → List Symbol
  | 0, _, _ => []
  | fuel + 1, buf, pos =>
    match scanArm buf pos with
    | .exhausted => []
    | .skip => scan fuel buf (pos + 1)
    | .incomplete => []
    | .accept s => s :: scan fuel buf (pos + FRAME_LEN)
    | .resync => scan fuel buf (pos + 1)

/-- `decode(buf)` (R101). Every turn moves `pos` by at least 1, so `len(buf)` turns are enough. -/
def decodeBuffer (buf : List Byte) : List Symbol :=
  scan buf.length buf 0

/-! ## Part B: one accepted byte (R108) -/

/-- What RXBYTE leaves in the Codec's registers, and the symbol it emits. -/
structure CodecStep where
  window : Window
  fill : Fin 9
  emitted : Option Symbol
  deriving DecidableEq, Repr

/-- RXBYTE in the Codec: the window shifts, `fill` counts up to 8, and a full window that is a valid frame emits its
symbol and clears `fill` (R108). -/
def codecAccept (w : Window) (fill : Fin 9) (b : Byte) : CodecStep :=
  let w' := w.shift b
  let fill' := fillSucc fill
  if fill'.val = 8 then
    match frameSymbol? w'.toList with
    | some s => ⟨w', 0, some s⟩
    | none => ⟨w', fill', none⟩
  else ⟨w', fill', none⟩

/-- The symbols the Codec emits over a sequence of accepted bytes, and where it ends (R111). -/
def codecFeed (w : Window) (fill : Fin 9) : List Byte → List Symbol × Window × Fin 9
  | [] => ([], w, fill)
  | b :: rest =>
    let r := codecAccept w fill b
    let (syms, w', fill') := codecFeed r.window r.fill rest
    (r.emitted.toList ++ syms, w', fill')

end Sys2Proof.Machine
end

