-- ==== Sys2Proof/Machine/Flags.lean ====
section
/-! DEFINITION. The single-bit results and the combinational outputs of a clock cycle (10_state.md R29, R32;
41_motion_fsm.md R155; 43_top_loop.md R203). They are functions of the registers and of the same cycle's inputs; none is
stored. -/

namespace Sys2Proof.Machine

/-- `busy`, the wire `burst_cnt != 0` (10_state.md R25). -/
def busy (s : State) : Bool :=
  s.burstCnt != 0

/-- `changed` of a legal symbol code: `(sym != 00000) and (sym != mstate)` (R155). -/
def changedFlag (mstate sym : Code) : Bool :=
  sym != 0b00000#5 && sym != mstate

/-- `act_valid` of a legal symbol code: `(sym = 00000) or (sym != mstate)` (R155). -/
def actValidFlag (mstate sym : Code) : Bool :=
  sym == 0b00000#5 || sym != mstate

/-- `act_cmd` of a legal symbol code: `mstate` if `sym = 00000`, else `sym` (R155). -/
def actCmdOf (mstate sym : Code) : Code :=
  if sym = 0b00000#5 then mstate else sym

/-- A symbol code is one of the six legal ones (30_encoding.md R80). -/
def legalSymbol (sym : Code) : Bool :=
  (symbolOfCode? sym).isSome

/-- `rx_flush` of the cycle; only the byte interface has it. -/
def flushPin (pins : Pins) : Bool :=
  match pins.drive with
  | .codec _ _ f => f
  | .symIn _ _ => false
  | .actIn _ _ => false

/-- `rx_ready = not rst and not rx_flush and burst_cnt == 0` (R203). -/
def rxReady (pins : Pins) (s : State) : Bool :=
  !pins.rst && !flushPin pins && !busy s

/-- The byte accepted in the cycle: offered, with `rst` = 0 and `rx_ready` = 1 (10_state.md R32). -/
def acceptedByte (pins : Pins) (s : State) : Option Byte :=
  match pins.drive with
  | .codec valid data _ => if valid && rxReady pins s then some data else none
  | .symIn _ _ => none
  | .actIn _ _ => none

/-- The symbol the Codec emits in the cycle (40_frame_codec.md R112). -/
def emittedSymbol (pins : Pins) (s : State) : Option Symbol :=
  match acceptedByte pins s with
  | none => none
  | some b => (codecAccept s.window s.fill b).emitted

/-- The symbol code presented to the state machine in the cycle: `sym` under `sym_valid`, or `sym_in` under
`sym_in_valid` (10_state.md R32). -/
def presentedCode (pins : Pins) (s : State) : Option Code :=
  if pins.rst then none
  else
    match pins.drive with
    | .codec _ _ _ => (emittedSymbol pins s).map Symbol.code
    | .symIn valid code => if valid then some code else none
    | .actIn _ _ => none

/-- The legal code the state machine acts on in the cycle: presented, legal, and `burst_cnt` = 0 (R155). -/
def actedCode (pins : Pins) (s : State) : Option Code :=
  match presentedCode pins s with
  | none => none
  | some c => if legalSymbol c && !busy s then some c else none

/-- The command code on `act_cmd` under `act_valid`: the state machine's, or the one an Actuator used alone is
given (R155, 42_actuator.md R188). -/
def commandCode (pins : Pins) (s : State) : Option Code :=
  if pins.rst then none
  else
    match pins.drive with
    | .actIn valid code => if valid then some code else none
    | .codec _ _ _ | .symIn _ _ =>
      match actedCode pins s with
      | none => none
      | some c => if actValidFlag s.mstate.code c then some (actCmdOf s.mstate.code c) else none

/-- All output ports of the cycle (10_state.md R32). -/
def outputs (pins : Pins) (s : State) : Outputs where
  rxReady := rxReady pins s
  sym := if pins.rst then none else (emittedSymbol pins s).map Symbol.code
  changed :=
    match actedCode pins s with
    | none => false
    | some c => changedFlag s.mstate.code c
  actCmd := commandCode pins s
  state := s.mstate.code
  fault := s.fault
  busy := busy s
  duty := s.duty

end Sys2Proof.Machine
end

