-- ==== Sys2Proof/Machine/Ops.lean ====
section
/-! DEFINITION. The named operations over the state. An operation of the event level takes the parameters `p` and
the state and answers the next state; the last two sections are the edge of one clock cycle. -/

namespace Sys2Proof.Machine

/-! ## Register updates -/

/-- The Codec's registers written. -/
def State.setCodec (s : State) (w : Window) (f : Fin 9) : State :=
  { s with window := w, fill := f }

/-- `fill` written. -/
def State.setFill (s : State) (f : Fin 9) : State :=
  { s with fill := f }

/-- `mstate` written. -/
def State.setMstate (s : State) (m : Movement) : State :=
  { s with mstate := m }

/-- `fault` written. -/
def State.setFault (s : State) (b : Bool) : State :=
  { s with fault := b }

/-- The four duty registers written at once. -/
def State.setDuty (s : State) (d : Duties) : State :=
  { s with duty := d }

/-- `burst_cnt` written. -/
def State.setBurstCnt (s : State) (n : Nat) : State :=
  { s with burstCnt := n }

/-- `burst_cmd` written. -/
def State.setBurstCmd (s : State) (m : Moving) : State :=
  { s with burstCmd := m }

/-- The pending inputs replaced. -/
def State.setInput (s : State) (l : List Input) : State :=
  { s with input := l }

/-- One observation recorded. -/
def State.record (s : State) (o : Obs) : State :=
  { s with trace := s.trace ++ [o] }

/-- The four duty registers written at once, and the write observed (43_top_loop.md R206). -/
def State.writeDuties (s : State) (d : Duties) : State :=
  (s.setDuty d).record (.writeAll d)

/-! ## The Actuator at the event level (42_actuator.md R173 to R181) -/

/-- One duty register written, and the write observed. -/
def writePin (s : State) (w : PinWrite) : State :=
  (s.setDuty (s.duty.set w.1 w.2)).record (.write w.1 w.2)

/-- Duty-register writes in the order listed. -/
def runWrites (ws : List PinWrite) (s : State) : State :=
  ws.foldl writePin s

/-- A burst counted in clocks ends: `burst_cnt` is 0 and phase 2 is written on one edge. Its `BURST_TICKS` clocks were
the `wait BURST_TIME` between the phases, which is observed here (42_actuator.md R187, 00_scope.md R9; log entries 16
and 22). -/
def endBurst (p : Params) (s : State) : State :=
  ((s.record (.wait p.burstTime)).setBurstCnt 0).writeDuties (cruiseDuties p (.move s.burstCmd))

/-- The rest of a burst in progress elapses: `burst_cnt` runs to 0 and the duties drop to the cruise
(42_actuator.md R183, R184, R187). With no burst in progress it does nothing, which is every state of an event-level
run. It is what "processed after the call returns" asks of an event that finds the block busy (log entry 4). -/
def settle (p : Params) (s : State) : State :=
  if s.burstCnt = 0 then s else endBurst p s

/-- A composed primitive with cruising duty `d`, whole: for a moving one phase 1, the wait, phase 2 (R176); `stop()`
has no burst and no wait (R181). The burst registers are left as the cycle level leaves them (log entry 9). -/
def callPrimitive (p : Params) (prim : Primitive) (d : Int) (s : State) : State :=
  match prim with
  | .stop => runWrites stopWrites (s.record (.call .stop))
  | .move m =>
    let issued := ((s.record (.call (.move m))).setBurstCmd m).setBurstCnt p.burstTicks
    let burst := runWrites (phase1 p m) issued
    let waited := (burst.record (.wait p.burstTime)).setBurstCnt 0
    runWrites (phase2 p m d) waited

/-- A composed primitive presented to the Actuator, after a burst in progress (log entry 4). -/
def actuate (p : Params) (prim : Primitive) (d : Int) (s : State) : State :=
  callPrimitive p prim d (settle p s)

/-- A per-channel primitive presented to the Actuator (R173 to R175), after a burst in progress (log entry 4). -/
def channelCall (p : Params) (c : ChannelCall) (s : State) : State :=
  runWrites (channelWrites p c) (settle p s)

/-! ## The state machine at the event level (41_motion_fsm.md R140 to R154) -/

/-- `apply(symbol)`, atomic, the primitive and its wait included (R143, R149); after a burst in progress (log entry
4). The observation `applied` carries the returned boolean. -/
def applySymbol (p : Params) (sym : Symbol) (s0 : State) : State :=
  let s := settle p s0
  match target sym with
  | none => (callPrimitive p (prim s.mstate) p.cruiseDuty s).record (.applied sym false)
  | some m =>
    if m ≠ s.mstate then
      ((callPrimitive p (prim m) p.cruiseDuty s).setMstate m).record (.applied sym true)
    else s.record (.applied sym false)

/-- Taking the block's one exception, `raise AssertUnknownSymbol(code)`: `fault <- 1`, "nothing else changes"
(60_exceptions.md R224, R227). There is no return from it: only RESET clears the bit (R228). DESIGN CHOICE, safe (log
entry 23): the raise, with its code, is also an observation, at the event level. -/
def raiseUnknownSymbol (code : Code) (s : State) : State :=
  (s.setFault true).record (.assertUnknownSymbol code)

/-! ## Port events at the event level (43_top_loop.md R202) -/

/-- RXBYTE: the Codec takes the byte, and a symbol it emits is applied in the same step (40_frame_codec.md R108). No
byte is accepted during a burst (43_top_loop.md R203), so one in progress elapses first (log entry 4). -/
def receiveByte (p : Params) (b : Byte) (s0 : State) : State :=
  let s := settle p s0
  let r := codecAccept s.window s.fill b
  let s1 := s.setCodec r.window r.fill
  match r.emitted with
  | none => s1
  | some sym => applySymbol p sym s1

/-- FLUSH: `fill <- 0` and nothing else (40_frame_codec.md R109). -/
def flushCodec (s : State) : State :=
  s.setFill 0

/-- RESET: every register to its reset value, all at once, the writes of the duty registers observed
(70_reset_and_hazards.md R250, 10_state.md R24). What the environment has pending and what was observed are not
registers of the block. -/
def resetBlock (s : State) : State :=
  State.writeDuties { State.reset with input := s.input, trace := s.trace } State.reset.duty

/-! ## The edge of one clock cycle (42_actuator.md R187, 41_motion_fsm.md R155) -/

/-- The burst counter on a clock edge: down by one, and on the edge from 1 to 0 the duties take the cruise (R187).
With `burst_cnt` = 0 nothing happens. -/
def tick (p : Params) (s : State) : State :=
  if s.burstCnt = 0 then s
  else if s.burstCnt = 1 then endBurst p s
  else s.setBurstCnt (s.burstCnt - 1)

/-- A primitive issued on a clock edge: the four duties at once, and for a moving one the burst registers (R187). -/
def issue (p : Params) (prim : Primitive) (s : State) : State :=
  match prim with
  | .stop => s.writeDuties (burstDuties p .stop)
  | .move m => ((s.writeDuties (burstDuties p (.move m))).setBurstCmd m).setBurstCnt p.burstTicks

/-- What the Codec's registers take on the edge (40_frame_codec.md R108, R109). -/
def codecEdge (pins : Pins) (s : State) : State :=
  if flushPin pins then s.setFill 0
  else
    match acceptedByte pins s with
    | none => s
    | some b =>
      let r := codecAccept s.window s.fill b
      s.setCodec r.window r.fill

/-- What `mstate` and `fault` take on the edge: the presented code decided in the registers `old` of the cycle
(R153, R155). -/
def motionEdge (pins : Pins) (old s : State) : State :=
  match presentedCode pins old with
  | none => s
  | some c =>
    if legalSymbol c then
      match actedCode pins old with
      | none => s
      | some c => if changedFlag old.mstate.code c then s.setMstate ((movementOfCode? c).getD old.mstate) else s
    else s.setFault true

/-- What the Actuator's registers take on the edge: a burst in progress counts down and is not cut short (R184, log
entry 10); otherwise a legal command is issued, and an illegal one writes nothing (R188). -/
def actuatorEdge (p : Params) (pins : Pins) (old s : State) : State :=
  if busy old then tick p s
  else
    match commandCode pins old with
    | none => s
    | some c =>
      match primitiveOfCode? c with
      | none => s
      | some prim => issue p prim s

/-- One clock cycle: the ports during it are observed, then every register takes its next value on the edge, the duty
writes of the edge observed after the ports (log entry 19), RESET first (10_state.md R32, 30_encoding.md R87). -/
def clockCycle (p : Params) (pins : Pins) (s : State) : State :=
  let seen := s.record (.cycle (outputs pins s))
  if pins.rst then resetBlock seen
  else actuatorEdge p pins s (motionEdge pins s (codecEdge pins seen))

end Sys2Proof.Machine
end

