-- ==== Sys2Proof/Machine/Actuator.lean ====
section
/-! DEFINITION. The meanings of the five Actuator commands, at the event level and at the default cruising duty
(42_actuator.md R177 to R181). -/

namespace Sys2Proof.Machine

/-- P_FORWARD: both channels forward (R177). -/
def execPForward (s : State) : Host.Outcome State Fault Refusal :=
  .next (actuate Config.params (.move .forward) Config.params.cruiseDuty s)

/-- P_BACKWARD: both channels backward (R178). -/
def execPBackward (s : State) : Host.Outcome State Fault Refusal :=
  .next (actuate Config.params (.move .backward) Config.params.cruiseDuty s)

/-- P_SPIN_LEFT: channel B forward, channel A the opposite channel (R179). -/
def execPSpinLeft (s : State) : Host.Outcome State Fault Refusal :=
  .next (actuate Config.params (.move .spinLeft) Config.params.cruiseDuty s)

/-- P_SPIN_RIGHT: channel A forward, channel B the opposite channel (R180). -/
def execPSpinRight (s : State) : Host.Outcome State Fault Refusal :=
  .next (actuate Config.params (.move .spinRight) Config.params.cruiseDuty s)

/-- P_STOP: the four pins to zero, no burst (R181). -/
def execPStop (s : State) : Host.Outcome State Fault Refusal :=
  .next (actuate Config.params .stop Config.params.cruiseDuty s)

end Sys2Proof.Machine
end

