-- ==== Sys2Proof/Machine/Motion.lean ====
section
/-! DEFINITION. The meanings of the six frame commands, at the event level (41_motion_fsm.md R144 to R149). -/

namespace Sys2Proof.Machine

/-- REPEAT: call the primitive of the held state; `mstate` is not written and the result is false (R149). -/
def execRepeat (s : State) : Host.Outcome State Fault Refusal :=
  .next (applySymbol Config.params .rep s)

/-- FORWARD: R143 with Forward (R144). -/
def execForward (s : State) : Host.Outcome State Fault Refusal :=
  .next (applySymbol Config.params .forward s)

/-- BACKWARD: R143 with Backward (R145). -/
def execBackward (s : State) : Host.Outcome State Fault Refusal :=
  .next (applySymbol Config.params .backward s)

/-- LEFT: R143 with Left (R146). -/
def execLeft (s : State) : Host.Outcome State Fault Refusal :=
  .next (applySymbol Config.params .left s)

/-- RIGHT: R143 with Right (R147). -/
def execRight (s : State) : Host.Outcome State Fault Refusal :=
  .next (applySymbol Config.params .right s)

/-- STOP: R143 with Stop (R148). -/
def execStop (s : State) : Host.Outcome State Fault Refusal :=
  .next (applySymbol Config.params .stop s)

end Sys2Proof.Machine
end

