-- ==== Sys2Proof/Machine/Port.lean ====
section
/-! DEFINITION. The meanings of the three port events, at the event level (43_top_loop.md R202). -/

namespace Sys2Proof.Machine

/-- RESET (70_reset_and_hazards.md R250). -/
def execReset (s : State) : Host.Outcome State Fault Refusal :=
  .next (resetBlock s)

/-- FLUSH (40_frame_codec.md R109). -/
def execFlush (s : State) : Host.Outcome State Fault Refusal :=
  .next (flushCodec s)

/-- RXBYTE, with the application of the symbol it completes (40_frame_codec.md R108). -/
def execRxbyte (b : Byte) (s : State) : Host.Outcome State Fault Refusal :=
  .next (receiveByte Config.params b s)

end Sys2Proof.Machine
end

