-- ==== Sys2Proof/Machine/Dispatch.lean ====
section
/-! DEFINITION. The meaning of each instruction: one arm per constructor of `Instr`. -/

namespace Sys2Proof.Machine

/-- The meaning of an instruction in a state. -/
def exec (i : Instr) (s : State) : Host.Outcome State Fault Refusal :=
  match i with
  | .repeatHeld => Sys2Proof.Machine.execRepeat s
  | .forward => Sys2Proof.Machine.execForward s
  | .backward => Sys2Proof.Machine.execBackward s
  | .left => Sys2Proof.Machine.execLeft s
  | .right => Sys2Proof.Machine.execRight s
  | .stop => Sys2Proof.Machine.execStop s
  | .pForward => Sys2Proof.Machine.execPForward s
  | .pBackward => Sys2Proof.Machine.execPBackward s
  | .pSpinLeft => Sys2Proof.Machine.execPSpinLeft s
  | .pSpinRight => Sys2Proof.Machine.execPSpinRight s
  | .pStop => Sys2Proof.Machine.execPStop s
  | .reset => Sys2Proof.Machine.execReset s
  | .flush => Sys2Proof.Machine.execFlush s
  | .rxbyte b => Sys2Proof.Machine.execRxbyte b s

end Sys2Proof.Machine
end

