-- ==== Sys2Proof/Machine/TopLoop.lean ====
section
/-! DEFINITION. The assembled block (43_top_loop.md): what one input of the environment does, POLL among them, and
the step that takes the next one. -/

namespace Sys2Proof.Machine

/-- The second half of POLL: each symbol applied in order, as the command of its frame (R200, R201). -/
def runCommands : List Symbol → State → Host.Outcome State Fault Refusal
  | [], s => .next s
  | sym :: rest, s =>
    match exec (Instr.ofSymbol sym) s with
    | .next t => runCommands rest t
    | .fault r => .fault r
    | .refused r => .refused r

/-- POLL(buf): decode the snapshot, then apply its symbols (R200). It reads and writes what `apply` does, so the
window and `fill` of the streaming form keep their values (log entry 8). -/
def poll (buf : List Byte) (s : State) : Host.Outcome State Fault Refusal :=
  runCommands (decodeBuffer buf) s

/-- One input of the environment, taken in the state from which it was removed. A raw word that is an instruction is
executed. One that is none has the effect the spec gives it: an event vector that is "no event" changes nothing
(30_encoding.md R87), an illegal `act_cmd` writes nothing (42_actuator.md R188), an illegal `sym_in` raises the
assertion (41_motion_fsm.md R153). -/
def takeInput (i : Input) (s : State) : Host.Outcome State Fault Refusal :=
  match i with
  | .port e =>
    match decodeInstr (.port e) with
    | .ok instr => exec instr s
    | .error _ => .next s
  | .actuator c =>
    match decodeInstr (.act c) with
    | .ok instr => exec instr s
    | .error _ => .next s
  | .snapshot buf => poll buf s
  | .symbol c =>
    match symbolOfCode? c with
    | some sym => exec (Instr.ofSymbol sym) s
    | none => .next (raiseUnknownSymbol c s)
  | .channel call => .next (channelCall Config.params call s)
  | .composed p d => .next (actuate Config.params p d s)
  | .clock pins => .next (clockCycle Config.params pins s)

/-- One step: the next pending input is removed and taken; with none pending, time passes: a burst in progress
counts down by one clock, and otherwise the block waits (42_actuator.md R183, 10_state.md R36; log entry 1). -/
def stepInput (s : State) : Host.Outcome State Fault Refusal :=
  match s.input with
  | [] => .next (tick Config.params s)
  | i :: rest => takeInput i (s.setInput rest)

end Sys2Proof.Machine
end

