-- ==== Sys2Proof/Machine/Step.lean ====
section
/-! DEFINITION. The step of the machine, and where an instruction word is placed so that the next step runs it. -/

namespace Sys2Proof.Machine

/-- One step of the block. -/
def step (s : State) : Host.Outcome State Fault Refusal :=
  stepInput s

/-- The state with the instruction of a table word presented as the next input, on the interface its format belongs
to; a number that is no word of the table changes nothing (log entries 1, 12 and 13). -/
def State.withFetchWord (s : State) (nbits w : Nat) : State :=
  match rawOfTableWord nbits w with
  | none => s
  | some r => s.setInput (r.toInput :: s.input)

end Sys2Proof.Machine
end

