-- ==== Sys2Proof/Safety.lean ====
section
/-! DEFINITION. What counts as a safe run, in the terms the statements use: the channel-pair invariant, duties in
range, a state that agrees with its duties, and the inputs of the assembled block. -/

namespace Sys2Proof.Machine

/-- The channel-pair invariant: of the two pins of a channel at most one is non-zero (10_state.md R24, 42_actuator.md
R182). -/
abbrev Duties.pairOk (d : Duties) : Prop :=
  (d.af = 0 ∨ d.ab = 0) ∧ (d.bf = 0 ∨ d.bb = 0)

/-- No duty is above `MAX_DUTY` (10_state.md R24). -/
abbrev Duties.inRange (p : Params) (d : Duties) : Prop :=
  d.af ≤ p.maxDuty ∧ d.ab ≤ p.maxDuty ∧ d.bf ≤ p.maxDuty ∧ d.bb ≤ p.maxDuty

/-- The Actuator's registers hold what 10_state.md R20, R24 and R25 allow. -/
abbrev State.actuatorOk (p : Params) (s : State) : Prop :=
  s.duty.pairOk ∧ s.duty.inRange p ∧ s.burstCnt ≤ p.burstTicks

/-- The duties are those of the held state: the cruise duties of its primitive, or, inside a burst, that primitive's
burst duties with `burst_cmd` naming it (43_top_loop.md R208, 42_actuator.md R187). -/
abbrev State.dutiesAgree (p : Params) (s : State) : Prop :=
  if s.burstCnt = 0 then s.duty = cruiseDuties p (prim s.mstate)
  else prim s.mstate = .move s.burstCmd ∧ s.duty = burstDuties p (.move s.burstCmd)

/-- An input of the assembled block: port events, snapshots and clock cycles of the byte interface; nothing drives
the state machine or the Actuator past the Codec (43_top_loop.md R202, R209). -/
def assembledInput : Input → Bool
  | .port _ => true
  | .snapshot _ => true
  | .actuator _ => false
  | .symbol _ => false
  | .channel _ => false
  | .composed _ _ => false
  | .clock pins =>
    match pins.drive with
    | .codec _ _ _ => true
    | .symIn _ _ => false
    | .actIn _ _ => false

/-- A state of a run of the assembled block that has not gone wrong: every pending input is one of the assembled
block's, `fault` = 0, and the duties are those of the held state (43_top_loop.md R208, 10_state.md R26). -/
abbrev State.assembledOk (p : Params) (s : State) : Prop :=
  (∀ i ∈ s.input, assembledInput i = true) ∧ s.fault = false ∧ s.dutiesAgree p

/-- A safe run: it has not raised the assertion ("every claim about the block takes `fault` = 0 as a premise",
41_motion_fsm.md R153) and never drives both pins of a channel. -/
abbrev State.safe (s : State) : Prop :=
  s.fault = false ∧ s.duty.pairOk

/-! ## Observations -/

/-- The Actuator calls of a trace, in order: `act_valid` with its `act_cmd` (43_top_loop.md R206). -/
def calls (l : List Obs) : List Primitive :=
  l.filterMap fun
    | .call p => some p
    | .write _ _ => none
    | .writeAll _ => none
    | .wait _ => none
    | .applied _ _ => none
    | .assertUnknownSymbol _ => none
    | .cycle _ => none

/-- The symbols applied in a trace, in order, each with the boolean `apply` returned (43_top_loop.md R206). -/
def returned (l : List Obs) : List (Symbol × Bool) :=
  l.filterMap fun
    | .call _ => none
    | .write _ _ => none
    | .writeAll _ => none
    | .wait _ => none
    | .applied s c => some (s, c)
    | .assertUnknownSymbol _ => none
    | .cycle _ => none

/-- The observation of one duty-register write. -/
def writeObs (w : PinWrite) : Obs :=
  .write w.1 w.2

/-- What one call of a composed primitive shows: the call, phase 1, the wait, phase 2 (42_actuator.md R176, R181). -/
def callObs (p : Params) (prim : Primitive) (d : Int) : List Obs :=
  match prim with
  | .stop => .call .stop :: stopWrites.map writeObs
  | .move m =>
    .call (.move m) :: ((phase1 p m).map writeObs ++ .wait p.burstTime :: (phase2 p m d).map writeObs)

/-- What the end of a burst counted in clocks shows: the wait is over, and phase 2 on one edge (42_actuator.md R187). -/
def endBurstObs (p : Params) (s : State) : List Obs :=
  [.wait p.burstTime, .writeAll (cruiseDuties p (.move s.burstCmd))]

/-- The duty registers after the writes a trace shows, from `d` before them (43_top_loop.md R206). -/
def dutiesAfter (l : List Obs) (d : Duties) : Duties :=
  l.foldl (fun d o => match o with
    | .call _ => d
    | .write pin v => d.set pin v
    | .writeAll d' => d'
    | .wait _ => d
    | .applied _ _ => d
    | .assertUnknownSymbol _ => d
    | .cycle _ => d) d

/-- The duty-register writes a trace shows, with the wait markers between phases, in order (43_top_loop.md R206 (3)). -/
def shownWrites (l : List Obs) : List Obs :=
  l.filterMap fun
    | .call _ => none
    | .write pin v => some (.write pin v)
    | .writeAll d => some (.writeAll d)
    | .wait n => some (.wait n)
    | .applied _ _ => none
    | .assertUnknownSymbol _ => none
    | .cycle _ => none

/-- The writes shown since reset account for the duties: none was missed (43_top_loop.md R206). -/
abbrev State.writesShown (s : State) : Prop :=
  s.duty = dutiesAfter s.trace State.reset.duty

/-! ## Comparing states and runs -/

/-- Two states hold the same in every register of 10_state.md R20. -/
abbrev sameRegisters (s t : State) : Prop :=
  s.window = t.window ∧ s.fill = t.fill ∧ s.mstate = t.mstate ∧ s.fault = t.fault ∧ s.duty = t.duty ∧
    s.burstCnt = t.burstCnt ∧ s.burstCmd = t.burstCmd

/-- Clock cycles, one after another. -/
def clockRun (p : Params) (l : List Pins) (s : State) : State :=
  l.foldl (fun s pins => clockCycle p pins s) s

/-- A cycle of the byte interface in which nothing is offered. -/
def idlePins : Pins :=
  ⟨false, .codec false 0x00#8 false⟩

/-- Instructions executed one after another, up to the first stop. -/
def runInstrs : List Instr → State → Host.Outcome State Fault Refusal
  | [], s => .next s
  | i :: rest, s =>
    match exec i s with
    | .next t => runInstrs rest t
    | .fault r => .fault r
    | .refused r => .refused r

/-- The events of one snapshot in the streaming form: RXBYTE of every byte, then FLUSH (43_top_loop.md R204). -/
def snapshotEvents (buf : List Byte) : List Instr :=
  buf.map Instr.rxbyte ++ [.flush]

/-- Snapshots polled one after another, up to the first stop. -/
def pollAll : List (List Byte) → State → Host.Outcome State Fault Refusal
  | [], s => .next s
  | buf :: rest, s =>
    match poll buf s with
    | .next t => pollAll rest t
    | .fault r => .fault r
    | .refused r => .refused r

end Sys2Proof.Machine
end

