-- ==== Sys2Proof/Certificates/Slice0/Obligations.lean ====
section
/-! DEFINITION. The statements for the provers. Each docstring names the rule of spec/ it formalises; where it rests
on a choice of the model or on a decision the spec marks as its own, it says so and names the log entry. `P` below is
the machine's parameters, about whose values nothing is known. -/

open Sys2Proof Sys2Proof.Machine

namespace Sys2Proof.Claims

/-- The parameters of the machine. -/
abbrev P : Params := Config.params

/-- `clamp(CRUISE_DUTY)`, written `c` in 42_actuator.md R185. -/
abbrev cruise : Nat := clamp P P.cruiseDuty

/-- The command whose frame asks for a Movement State (41_motion_fsm.md R144 to R148). -/
def commandFor : Movement → Instr
  | .forward => .forward
  | .backward => .backward
  | .left => .left
  | .right => .right
  | .stop => .stop

/-- The symbol of that command. -/
def symbolFor : Movement → Symbol
  | .forward => .forward
  | .backward => .backward
  | .left => .left
  | .right => .right
  | .stop => .stop

/-- Registers outside the Actuator, `mstate` and the trace are as before: the frame of a command that actuates. -/
abbrev keepsCodecAndFault (s t : State) : Prop :=
  t.window = s.window ∧ t.fill = s.fill ∧ t.fault = s.fault ∧ t.input = s.input

/-- `burst_cmd` after a composed primitive: a moving one leaves itself there, `stop()` leaves it (42_actuator.md R187; at
the event level log entry 9). -/
def burstCmdAfter (q : Primitive) (old : Moving) : Moving :=
  match q with
  | .move m => m
  | .stop => old

/-- The 30 cells of the table of 41_motion_fsm.md R150: next state, primitive called, value returned. -/
def cell : Movement → Symbol → Movement × Option Primitive × Bool
  | .forward, .rep => (.forward, some (.move .forward), false)
  | .forward, .forward => (.forward, none, false)
  | .forward, .backward => (.backward, some (.move .backward), true)
  | .forward, .left => (.left, some (.move .spinLeft), true)
  | .forward, .right => (.right, some (.move .spinRight), true)
  | .forward, .stop => (.stop, some .stop, true)
  | .backward, .rep => (.backward, some (.move .backward), false)
  | .backward, .forward => (.forward, some (.move .forward), true)
  | .backward, .backward => (.backward, none, false)
  | .backward, .left => (.left, some (.move .spinLeft), true)
  | .backward, .right => (.right, some (.move .spinRight), true)
  | .backward, .stop => (.stop, some .stop, true)
  | .left, .rep => (.left, some (.move .spinLeft), false)
  | .left, .forward => (.forward, some (.move .forward), true)
  | .left, .backward => (.backward, some (.move .backward), true)
  | .left, .left => (.left, none, false)
  | .left, .right => (.right, some (.move .spinRight), true)
  | .left, .stop => (.stop, some .stop, true)
  | .right, .rep => (.right, some (.move .spinRight), false)
  | .right, .forward => (.forward, some (.move .forward), true)
  | .right, .backward => (.backward, some (.move .backward), true)
  | .right, .left => (.left, some (.move .spinLeft), true)
  | .right, .right => (.right, none, false)
  | .right, .stop => (.stop, some .stop, true)
  | .stop, .rep => (.stop, some .stop, false)
  | .stop, .forward => (.forward, some (.move .forward), true)
  | .stop, .backward => (.backward, some (.move .backward), true)
  | .stop, .left => (.left, some (.move .spinLeft), true)
  | .stop, .right => (.right, some (.move .spinRight), true)
  | .stop, .stop => (.stop, none, false)

/-- The number of Actuator calls of a symbol sequence from a held state (41_motion_fsm.md R152): the symbols that are
Repeat or differ from the state held before them. -/
def callCount : Movement → List Symbol → Nat
  | _, [] => 0
  | m, s :: rest =>
    match target s with
    | none => 1 + callCount m rest
    | some m' => (if m' = m then 0 else 1) + callCount m' rest

/-- Snapshots fed to the streaming Codec one after another, each followed by FLUSH (`fill <- 0`). -/
def feedSnapshots (w : Window) : List (List Byte) → List Symbol
  | [] => []
  | b :: rest => (codecFeed w 0 b).1 ++ feedSnapshots (codecFeed w 0 b).2.1 rest

/-- Deliveries fed to the streaming Codec one after another with no FLUSH between them. -/
def feedDeliveries (w : Window) (f : Fin 9) : List (List Byte) → List Symbol
  | [] => []
  | b :: rest => (codecFeed w f b).1 ++ feedDeliveries (codecFeed w f b).2.1 (codecFeed w f b).2.2 rest

/-- What `forward()` shows, in order (42_actuator.md R177). -/
def pForwardShows : List Obs :=
  [.call (.move .forward), .write .ab 0, .write .af P.maxDuty, .write .bb 0, .write .bf P.maxDuty,
    .wait P.burstTime, .write .ab 0, .write .af cruise, .write .bb 0, .write .bf cruise]

/-- What `backward()` shows, in order (42_actuator.md R178). -/
def pBackwardShows : List Obs :=
  [.call (.move .backward), .write .af 0, .write .ab P.maxDuty, .write .bf 0, .write .bb P.maxDuty,
    .wait P.burstTime, .write .af 0, .write .ab cruise, .write .bf 0, .write .bb cruise]

/-- What `spin_left()` shows, in order, in each spin mode (42_actuator.md R179). -/
def pSpinLeftShows : SpinMode → List Obs
  | .counterRotate =>
    [.call (.move .spinLeft), .write .af 0, .write .ab P.maxDuty, .write .bb 0, .write .bf P.maxDuty,
      .wait P.burstTime, .write .af 0, .write .ab cruise, .write .bb 0, .write .bf cruise]
  | .pivot =>
    [.call (.move .spinLeft), .write .af 0, .write .ab 0, .write .bb 0, .write .bf P.maxDuty,
      .wait P.burstTime, .write .bb 0, .write .bf cruise]

/-- What `spin_right()` shows, in order, in each spin mode (42_actuator.md R180). -/
def pSpinRightShows : SpinMode → List Obs
  | .counterRotate =>
    [.call (.move .spinRight), .write .ab 0, .write .af P.maxDuty, .write .bf 0, .write .bb P.maxDuty,
      .wait P.burstTime, .write .ab 0, .write .af cruise, .write .bf 0, .write .bb cruise]
  | .pivot =>
    [.call (.move .spinRight), .write .ab 0, .write .af P.maxDuty, .write .bf 0, .write .bb 0,
      .wait P.burstTime, .write .ab 0, .write .af cruise]

/-- The writes and the wait of one call of a composed primitive by the state machine or by `act_cmd`, whole and in order
(42_actuator.md R177 to R181). -/
def writesOf : Primitive → List Obs
  | .move .forward => pForwardShows.tail
  | .move .backward => pBackwardShows.tail
  | .move .spinLeft => (pSpinLeftShows P.spinMode).tail
  | .move .spinRight => (pSpinRightShows P.spinMode).tail
  | .stop => [.write .af 0, .write .ab 0, .write .bf 0, .write .bb 0]

/-- The event-level instruction that is one clock cycle's port event, from the pins and `burst_cnt`: RESET, FLUSH, or
RXBYTE of the byte offered while the block is not busy; none otherwise (30_encoding.md R87, 10_state.md R32). -/
def eventOf (pins : Pins) (s : State) : Option Instr :=
  if pins.rst then some .reset
  else
    match pins.drive with
    | .codec rxValid rxData rxFlush =>
      if rxFlush then some .flush
      else if rxValid && s.burstCnt == 0 then some (.rxbyte rxData)
      else none
    | .symIn _ _ => none
    | .actIn _ _ => none

/-- A cycle of the byte interface. -/
def byteCycle (pins : Pins) : Bool :=
  match pins.drive with
  | .codec _ _ _ => true
  | .symIn _ _ => false
  | .actIn _ _ => false

end Sys2Proof.Claims

open Sys2Proof.Claims

/-! ## Encoding -/

/-- The words of the opcode table decode to their rows, and two words of no row do not (30_encoding.md R76, R82, R83, R87;
opcode_table.json). R76 numbers a frame's bits; that a number of 8 bits is an Actuator command and one of 16 bits a
port-event vector, each with its upper bits 0, is the model's reading (log entry 12). -/
def Obligations.OpcodeTableWordsDecode : Prop :=
  decodeTableWord 64 0xFF01010102000000 = some .repeatHeld ∧
  decodeTableWord 64 0xFF01010102000100 = some .forward ∧
  decodeTableWord 64 0xFF01010102000200 = some .backward ∧
  decodeTableWord 64 0xFF01010102000400 = some .left ∧
  decodeTableWord 64 0xFF01010102000800 = some .right ∧
  decodeTableWord 64 0xFF01010102001000 = some .stop ∧
  decodeTableWord 8 0x01 = some .pForward ∧
  decodeTableWord 8 0x02 = some .pBackward ∧
  decodeTableWord 8 0x04 = some .pSpinLeft ∧
  decodeTableWord 8 0x08 = some .pSpinRight ∧
  decodeTableWord 8 0x10 = some .pStop ∧
  decodeTableWord 16 0x400 = some .reset ∧
  decodeTableWord 16 0x200 = some .flush ∧
  decodeTableWord 16 0x1A5 = some (.rxbyte 0xA5#8) ∧
  decodeTableWord 16 0x0A5 = none ∧
  decodeTableWord 64 0xFF01010102000300 = none

/-- Decoding and encoding agree: every instruction is read back from its word, and on the frame and Actuator
interfaces, which have no ignored bits, a word that decodes is the encoding of what it decodes to. -/
def Obligations.DecodeEncodeAgree : Prop :=
  (∀ i : Instr, i.wf = true → (encode i).wf = true ∧ decodeInstr (encode i) = .ok i) ∧
  (∀ (f : List Byte) (i : Instr), decodeInstr (.frame f) = .ok i → encode i = .frame f) ∧
  (∀ (c : Code) (i : Instr), decodeInstr (.act c) = .ok i → encode i = .act c)

/-- 30_encoding.md R74: validity is the four conjuncts; there are exactly six valid frames, and every other
sequence, whichever conjunct fails, has the one outcome that no symbol comes of it. -/
def Obligations.ValidFramesAreExactlySix : Prop :=
  (∀ f : List Byte, validFrame f = true ↔
    f.length = 8 ∧ f.take 6 = [0xFF#8, 0x01#8, 0x01#8, 0x01#8, 0x02#8, 0x00#8] ∧ f[7]? = some 0x00#8 ∧
      (f[6]? = some 0x00#8 ∨ f[6]? = some 0x01#8 ∨ f[6]? = some 0x02#8 ∨ f[6]? = some 0x04#8 ∨
        f[6]? = some 0x08#8 ∨ f[6]? = some 0x10#8)) ∧
  (∀ f : List Byte, validFrame f = true ↔ ∃ s : Symbol, f = frameOf s) ∧
  (∀ s t : Symbol, frameOf s = frameOf t → s = t) ∧
  (∀ f : List Byte, validFrame f = false → frameSymbol? f = none)

/-- The port event of a vector is decided by its three control bits, RESET first; the other bits are ignored where
the table says so (30_encoding.md R87, a decision of the spec, D6). -/
def Obligations.PortEventPriority : Prop :=
  ∀ e : EventVector, decodeInstr (.port e) =
    if e.getLsbD 10 then .ok .reset
    else if e.getLsbD 9 then .ok .flush
    else if e.getLsbD 8 then .ok (.rxbyte (e.extractLsb' 0 8))
    else .error .noEvent

/-! ## The Frame Codec -/

/-- `decode` emits the symbols of the valid frames of its buffer, each once, in the order of their positions, and at
most one for eight bytes (40_frame_codec.md R101 to R106, 30_encoding.md R84). -/
def Obligations.DecodeEmitsTheValidFrames : Prop :=
  ∀ buf : List Byte,
    decodeBuffer buf =
      (List.range buf.length).filterMap (fun k => frameSymbol? ((buf.drop k).take 8)) ∧
    8 * (decodeBuffer buf).length ≤ buf.length

/-- 40_frame_codec.md R113, the properties the source lists as testable. (P1) POLL of any buffer completes; (P2) a
valid frame decodes to its symbol; (P3) noise without `LEAD` before a buffer changes nothing; (P4) a frame with one
byte of its header or tail changed is removed, and the frame after it is still decoded; (P5) adjacent frames give one
symbol each, identical ones too. -/
def Obligations.CodecTestableProperties : Prop :=
  (∀ (b : List Byte) (s : State), ∃ t, poll b s = .next t) ∧
  (∀ s : Symbol, decodeBuffer (frameOf s) = [s]) ∧
  (∀ n b : List Byte, (∀ x ∈ n, x ≠ 0xFF#8) → decodeBuffer (n ++ b) = decodeBuffer b) ∧
  (∀ (s s2 : Symbol) (k : Nat) (v : Byte), k ≤ 5 ∨ k = 7 → (frameOf s)[k]? ≠ some v →
    decodeBuffer ((frameOf s).set k v ++ frameOf s2) = [s2]) ∧
  (∀ (s : Symbol) (b : List Byte), decodeBuffer (frameOf s ++ b) = s :: decodeBuffer b)

/-- 40_frame_codec.md R107: two snapshots give `decode(b1) ++ decode(b2)`, a subsequence of what `decode(b1 ++ b2)`
gives, and a shorter one exactly when a valid frame straddles the boundary. -/
def Obligations.SnapshotsLoseOnlyStraddlingFrames : Prop :=
  ∀ b1 b2 : List Byte,
    (∀ s : State, pollAll [b1, b2] s = runCommands (decodeBuffer b1 ++ decodeBuffer b2) s) ∧
    (decodeBuffer b1 ++ decodeBuffer b2).Sublist (decodeBuffer (b1 ++ b2)) ∧
    ((decodeBuffer b1 ++ decodeBuffer b2).length < (decodeBuffer (b1 ++ b2)).length ↔
      ∃ k, k < b1.length ∧ b1.length < k + 8 ∧ validFrame (((b1 ++ b2).drop k).take 8) = true)

/-- 40_frame_codec.md R111 (the streaming form is the spec's decision D4): from `fill` = 0 and any window content, the
bytes of a snapshot emit exactly `decode` of it, each symbol at offset 7 of its frame; with a FLUSH after each
snapshot the run emits the concatenation, and with none between deliveries it emits `decode` of the whole. -/
def Obligations.StreamingEqualsDecode : Prop :=
  (∀ (buf : List Byte) (w : Window), (codecFeed w 0 buf).1 = decodeBuffer buf) ∧
  (∀ (pre : List Byte) (b : Byte) (w : Window) (s : Symbol),
    (codecAccept (codecFeed w 0 pre).2.1 (codecFeed w 0 pre).2.2 b).emitted = some s →
      ∃ front, pre ++ [b] = front ++ frameOf s) ∧
  (∀ (bs : List (List Byte)) (w : Window), feedSnapshots w bs = bs.flatMap decodeBuffer) ∧
  (∀ (bs : List (List Byte)) (w : Window), feedDeliveries w 0 bs = decodeBuffer bs.flatten)

/-- Two symbols are never closer than eight accepted bytes, and nothing else limits their spacing: any bytes without
`LEAD` may stand between two frames (70_reset_and_hazards.md R265; 40_frame_codec.md R108). -/
def Obligations.SymbolsAreEightBytesApart : Prop :=
  (∀ (w : Window) (l : List Byte), l.length < 8 → (codecFeed w 0 l).1 = []) ∧
  (∀ (w : Window) (f : Fin 9) (b : Byte) (s : Symbol),
    (codecAccept w f b).emitted = some s → (codecAccept w f b).fill = 0) ∧
  (∀ (w : Window) (noise : List Byte) (s : Symbol), (∀ x ∈ noise, x ≠ LEAD) →
    (codecFeed w 0 (noise ++ frameOf s)).1 = [s])

/-- RXBYTE (40_frame_codec.md R108, 43_top_loop.md R202; the streaming form is the spec's decision D4), in a state
with no burst in progress: where the full shifted window is the frame of a symbol, `fill` is cleared and the symbol
is applied in the same step; otherwise only the window and `fill` change. -/
def Obligations.RxbyteResult : Prop :=
  ∀ (s : State) (b : Byte), s.burstCnt = 0 →
    (∀ sym : Symbol, 7 ≤ s.fill.val → [s.window.w1, s.window.w2, s.window.w3, s.window.w4, s.window.w5, s.window.w6,
        s.window.w7, b] = frameOf sym →
      exec (.rxbyte b) s = exec (Instr.ofSymbol sym)
        { s with window := ⟨s.window.w1, s.window.w2, s.window.w3, s.window.w4, s.window.w5, s.window.w6, s.window.w7, b⟩, fill := 0 } ∧
      ∃ t, exec (.rxbyte b) s = .next t ∧ t.fill = 0) ∧
    ((s.fill.val < 7 ∨ ∀ sym : Symbol, [s.window.w1, s.window.w2, s.window.w3, s.window.w4, s.window.w5, s.window.w6,
        s.window.w7, b] ≠ frameOf sym) →
      ∃ t, exec (.rxbyte b) s = .next t ∧ t.fill.val = min (s.fill.val + 1) 8 ∧
        t.window = ⟨s.window.w1, s.window.w2, s.window.w3, s.window.w4, s.window.w5, s.window.w6, s.window.w7, b⟩ ∧
        t.mstate = s.mstate ∧ t.fault = s.fault ∧ t.duty = s.duty ∧ t.burstCnt = s.burstCnt ∧
        t.burstCmd = s.burstCmd ∧ t.input = s.input ∧ t.trace = s.trace)

/-- FLUSH (40_frame_codec.md R109, the spec's decision D5): `fill` is 0 and nothing else changes, busy or not; two in
a row equal one; and in a clock cycle with `rx_flush` the offered byte is not accepted, no strobe is driven, and only
`fill` and a burst in progress move. -/
def Obligations.FlushResult : Prop :=
  (∀ s : State, exec .flush s = .next { s with fill := 0 }) ∧
  (∀ s t : State, exec .flush s = .next t → exec .flush t = .next t) ∧
  (∀ (s : State) (v : Bool) (d : Byte),
    let pins : Pins := ⟨false, .codec v d true⟩
    acceptedByte pins s = none ∧ (outputs pins s).rxReady = false ∧ (outputs pins s).sym = none ∧
    (outputs pins s).changed = false ∧ (outputs pins s).actCmd = none ∧
    sameRegisters (clockCycle P pins s) { tick P s with fill := 0 })

/-- RESET (70_reset_and_hazards.md R250; all values but that of `mstate` are the spec's decision D13, log entries 6 and 7):
every register takes its reset value, the writes of the duty registers are shown, nothing is emitted and no primitive is
called; in a clock cycle with `rst` it beats every other input, whatever drives the block (log entry 21), `rx_ready` and
all strobes are 0, and more such cycles change no register. What the trace holds is the model's (log entries 2 and 22). -/
def Obligations.ResetResult : Prop :=
  (∀ s : State, ∃ t, exec .reset s = .next t ∧
    t.window.toList = List.replicate 8 0x00#8 ∧ t.fill = 0 ∧ t.mstate = .stop ∧ t.fault = false ∧
    t.duty = ⟨0, 0, 0, 0⟩ ∧ t.burstCnt = 0 ∧ t.burstCmd = .forward ∧ t.input = s.input ∧
    t.trace = s.trace ++ [.writeAll ⟨0, 0, 0, 0⟩]) ∧
  (∀ (s : State) (d : Drive),
    let pins : Pins := ⟨true, d⟩
    sameRegisters (clockCycle P pins s) State.reset ∧
    (clockCycle P pins s).trace = s.trace ++ [.cycle (outputs pins s), .writeAll ⟨0, 0, 0, 0⟩] ∧
    (outputs pins s).rxReady = false ∧ (outputs pins s).sym = none ∧ (outputs pins s).changed = false ∧
    (outputs pins s).actCmd = none) ∧
  (∀ (s : State) (ds : List Drive), ds ≠ [] → sameRegisters (clockRun P (ds.map (Pins.mk true)) s) State.reset)

/-- The state after reset and its output ports (10_state.md R20, R36; all but `mstate` decisions of the spec, D13, log
entries 6 and 7); no duty write is outstanding in its trace. -/
def Obligations.ResetStateAndPorts : Prop :=
  State.reset.mstate = .stop ∧ State.reset.fill = 0 ∧ State.reset.window.toList = List.replicate 8 0x00#8 ∧
  State.reset.fault = false ∧ State.reset.duty = ⟨0, 0, 0, 0⟩ ∧ State.reset.burstCnt = 0 ∧
  Primitive.code (.move State.reset.burstCmd) = 0x01#5 ∧
  outputs idlePins State.reset =
    ⟨true, none, false, none, 0x10#5, false, false, ⟨0, 0, 0, 0⟩⟩ ∧
  State.reset.writesShown

/-! ## The Motion State Machine -/

/-- FORWARD, BACKWARD, LEFT, RIGHT and STOP on a change (41_motion_fsm.md R143 to R148): the primitive of the asked
state is called and runs whole, then `mstate` is that state and the result is true; nothing else changes (the burst
registers are as log entry 9 says). The premise is the event level's: no burst in progress (the other states are
`BusyBlockFinishesItsBurstFirst`). -/
def Obligations.MoveCommandsOnAChange : Prop :=
  ∀ (m : Movement) (s : State), s.burstCnt = 0 → s.mstate ≠ m →
    ∃ t, exec (commandFor m) s = .next t ∧ t.mstate = m ∧
      t.duty = cruiseDuties P (prim m) ∧
      t.trace = s.trace ++ callObs P (prim m) P.cruiseDuty ++ [.applied (symbolFor m) true] ∧
      t.burstCnt = 0 ∧ t.burstCmd = burstCmdAfter (prim m) s.burstCmd ∧ keepsCodecAndFault s t

/-- FORWARD, BACKWARD, LEFT, RIGHT and STOP in the state they ask for (41_motion_fsm.md R143 to R148): nothing is written
and nothing is called; the result is false. -/
def Obligations.MoveCommandsDebounced : Prop :=
  ∀ (m : Movement) (s : State), s.burstCnt = 0 → s.mstate = m →
    exec (commandFor m) s = .next { s with trace := s.trace ++ [.applied (symbolFor m) false] }

/-- REPEAT (41_motion_fsm.md R149; the result false is the spec's decision D10): the primitive of the held state is
called and runs whole, whatever the state, and `mstate` is not written; nothing else changes (`burst_cmd` as log entry 9
says). -/
def Obligations.RepeatReassertsTheHeldState : Prop :=
  ∀ s : State, s.burstCnt = 0 →
    ∃ t, exec .repeatHeld s = .next t ∧ t.mstate = s.mstate ∧
      t.duty = cruiseDuties P (prim s.mstate) ∧
      t.trace = s.trace ++ callObs P (prim s.mstate) P.cruiseDuty ++ [.applied .rep false] ∧
      t.burstCnt = 0 ∧ t.burstCmd = burstCmdAfter (prim s.mstate) s.burstCmd ∧ keepsCodecAndFault s t

/-- The whole transition table, all 30 cells, in every state (41_motion_fsm.md R150; the value Repeat returns is the
spec's decision D10; that a busy state answers as the state at its burst's end is the model's reading, log entry 4): next
state, primitive called, value returned; 20 cells change the state, 5 are debounced, 5 re-assert; a primitive that is
called is that of the state held after the `apply`. -/
def Obligations.TransitionTable : Prop :=
  (∀ (sym : Symbol) (s : State), ∃ t new,
    exec (Instr.ofSymbol sym) s = .next t ∧ t.trace = s.trace ++ new ∧
    t.mstate = (cell s.mstate sym).1 ∧ calls new = (cell s.mstate sym).2.1.toList ∧
    returned new = [(sym, (cell s.mstate sym).2.2)] ∧
    (∀ q ∈ calls new, q = prim t.mstate)) ∧
  (([Movement.forward, .backward, .left, .right, .stop].flatMap fun m =>
      [Symbol.rep, .forward, .backward, .left, .right, .stop].map fun y => cell m y).countP (fun c => c.2.2) = 20) ∧
  (([Movement.forward, .backward, .left, .right, .stop].flatMap fun m =>
      [Symbol.rep, .forward, .backward, .left, .right, .stop].map fun y => cell m y).countP (fun c => c.2.1.isNone) = 5)

/-- `mstate` never changes without a primitive being called in the same `apply`, the one of the new state; a primitive is
called without a change of state only by REPEAT, which always calls one (41_motion_fsm.md R151; in a busy state the
model's reading, log entry 4). -/
def Obligations.MealyMachine : Prop :=
  ∀ (sym : Symbol) (s : State), ∃ t new,
    exec (Instr.ofSymbol sym) s = .next t ∧ t.trace = s.trace ++ new ∧
    (t.mstate ≠ s.mstate → calls new = [prim t.mstate]) ∧
    (calls new ≠ [] → t.mstate = s.mstate → sym = .rep) ∧
    (sym = .rep → calls new = [prim s.mstate] ∧ t.mstate = s.mstate)

/-- The law of Actuator calls over a symbol sequence: a call for each Repeat and for each symbol that differs from the
state held before it (41_motion_fsm.md R152; from a busy state the model's reading, log entry 4); applying a non-Repeat
symbol twice calls nothing the second time. -/
def Obligations.ActuatorCallCount : Prop :=
  (∀ (syms : List Symbol) (s : State), ∃ t new,
    runCommands syms s = .next t ∧ t.trace = s.trace ++ new ∧
    (calls new).length = callCount s.mstate syms ∧ (returned new).map Prod.fst = syms) ∧
  (∀ (m : Movement) (s : State), ∃ t u new,
    exec (commandFor m) s = .next t ∧ exec (commandFor m) t = .next u ∧
    u.trace = t.trace ++ new ∧ calls new = [] ∧ sameRegisters u t)

/-- The initial state is Stop; from every state every state is reached in one step; no input makes the machine halt
(41_motion_fsm.md R141; the command in a busy state is the model's reading, log entry 4, and a step with no input pending
its convention, log entry 1). -/
def Obligations.EveryStateReachableAndNoHalt : Prop :=
  State.reset.mstate = .stop ∧
  (∀ (m : Movement) (s : State), ∃ t, exec (commandFor m) s = .next t ∧ t.mstate = m) ∧
  (∀ s : State, ∃ t, step s = .next t)

/-- POLL applies the symbols of its snapshot in the exact order their frames stand in it, every one of them and nothing
more (43_top_loop.md R200, R201); and the streaming form applies the same, in the same order (40_frame_codec.md R111,
43_top_loop.md R204, there derived; the streaming form is the spec's decision D4). In a busy state both are the model's
reading, log entry 4. -/
def Obligations.CommandsAppliedInFrameOrder : Prop :=
  (∀ (buf : List Byte) (s : State), ∃ t new,
    poll buf s = .next t ∧ t.trace = s.trace ++ new ∧ (returned new).map Prod.fst = decodeBuffer buf) ∧
  (∀ (buf : List Byte) (s : State), s.fill = 0 → ∃ t new,
    runInstrs (buf.map Instr.rxbyte) s = .next t ∧ t.trace = s.trace ++ new ∧
    (returned new).map Prod.fst = decodeBuffer buf)

/-! ## The fault bit -/

/-- An unknown symbol code at the state machine (41_motion_fsm.md R153, 60_exceptions.md R224; the sticky bit is the
spec's decision D12): `fault` is set, the assertion is observed, and nothing else changes, at the event level and in a
clock cycle; a legal code is applied. That the raise is observed, at the event level only, is the model's choice (log entry
23). -/
def Obligations.UnknownSymbolRaisesTheAssertion : Prop :=
  (∀ (s : State) (c : Code) (rest : List Input), s.input = .symbol c :: rest →
    (c ≠ 0b00000#5 ∧ c ≠ 0b00001#5 ∧ c ≠ 0b00010#5 ∧ c ≠ 0b00100#5 ∧ c ≠ 0b01000#5 ∧ c ≠ 0b10000#5) →
    step s = .next { s with fault := true, input := rest, trace := s.trace ++ [.assertUnknownSymbol c] }) ∧
  (∀ (s : State) (sym : Symbol) (rest : List Input), s.input = .symbol sym.code :: rest →
    step s = exec (Instr.ofSymbol sym) { s with input := rest }) ∧
  (∀ (s : State) (c : Code), symbolOfCode? c = none →
    sameRegisters (clockCycle P ⟨false, .symIn true c⟩ s) { tick P s with fault := true } ∧
    (outputs ⟨false, .symIn true c⟩ s).changed = false ∧ (outputs ⟨false, .symIn true c⟩ s).actCmd = none)

/-- `fault` is cleared only by RESET, and a second unknown symbol leaves it set (60_exceptions.md R228, the spec's
decision D12). -/
def Obligations.FaultClearedOnlyByReset : Prop :=
  (∀ s t : State, s.fault = true → step s = .next t → t.fault = false →
    (∃ e rest, s.input = .port e :: rest ∧ e.getLsbD 10 = true) ∨
    (∃ pins rest, s.input = .clock pins :: rest ∧ pins.rst = true)) ∧
  (∀ s : State, ∃ t, exec .reset s = .next t ∧ t.fault = false)

/-- `fault` is set only by an illegal symbol code presented to the state machine alone; no input of the assembled block
sets it (10_state.md R26, 60_exceptions.md R224). -/
def Obligations.FaultOnlyFromAnIllegalCode : Prop :=
  ∀ s t : State, s.fault = false → step s = .next t → t.fault = true →
    ∃ c, symbolOfCode? c = none ∧ ∃ rest,
      s.input = .symbol c :: rest ∨ s.input = .clock ⟨false, .symIn true c⟩ :: rest

/-! ## The Actuator -/

/-- CLAMP for every parameter and every request (42_actuator.md R172): into 0 to `MAX_DUTY`, never rejected; the corner
values; idempotent; monotone. -/
def Obligations.ClampLaws : Prop :=
  ∀ (p : Params) (v w : Int),
    (v < 0 → clamp p v = 0) ∧ (v > p.maxDuty → clamp p v = p.maxDuty) ∧
    (0 ≤ v → v ≤ p.maxDuty → (clamp p v : Int) = v) ∧
    clamp p 0 = 0 ∧ clamp p p.maxDuty = p.maxDuty ∧ clamp p (-1) = 0 ∧ clamp p (p.maxDuty + 1) = p.maxDuty ∧
    clamp p (clamp p v) = clamp p v ∧ (v ≤ w → clamp p v ≤ clamp p w)

/-- 42_actuator.md R173: `chX_forward(d)` writes 0 to the backward pin first and then `clamp(d)` to the forward pin, and
nothing else; a request of 0 or less leaves both pins zero. -/
def Obligations.ChannelForwardResult : Prop :=
  ∀ (s : State) (d : Int) (rest : List Input), s.burstCnt = 0 →
    (s.input = .channel (.forward .a d) :: rest → step s = .next { s with
      input := rest, duty := ⟨clamp P d, 0, s.duty.bf, s.duty.bb⟩
      trace := s.trace ++ [.write .ab 0, .write .af (clamp P d)] }) ∧
    (s.input = .channel (.forward .b d) :: rest → step s = .next { s with
      input := rest, duty := ⟨s.duty.af, s.duty.ab, clamp P d, 0⟩
      trace := s.trace ++ [.write .bb 0, .write .bf (clamp P d)] }) ∧
    (d ≤ 0 → clamp P d = 0)

/-- `chX_backward(d)` and `chX_stop()`, the ordered writes and nothing else (42_actuator.md R174, derived there from R173;
R175, the spec's decision D18). -/
def Obligations.ChannelBackwardAndStopResult : Prop :=
  ∀ (s : State) (d : Int) (rest : List Input), s.burstCnt = 0 →
    (s.input = .channel (.backward .a d) :: rest → step s = .next { s with
      input := rest, duty := ⟨0, clamp P d, s.duty.bf, s.duty.bb⟩
      trace := s.trace ++ [.write .af 0, .write .ab (clamp P d)] }) ∧
    (s.input = .channel (.backward .b d) :: rest → step s = .next { s with
      input := rest, duty := ⟨s.duty.af, s.duty.ab, 0, clamp P d⟩
      trace := s.trace ++ [.write .bf 0, .write .bb (clamp P d)] }) ∧
    (s.input = .channel (.stop .a) :: rest → step s = .next { s with
      input := rest, duty := ⟨0, 0, s.duty.bf, s.duty.bb⟩
      trace := s.trace ++ [.write .af 0, .write .ab 0] }) ∧
    (s.input = .channel (.stop .b) :: rest → step s = .next { s with
      input := rest, duty := ⟨s.duty.af, s.duty.ab, 0, 0⟩
      trace := s.trace ++ [.write .bf 0, .write .bb 0] })

/-- 42_actuator.md R177 and R178: the write sequence of `forward()` and of `backward()`, burst, wait and cruise, and the
end state; nothing but the Actuator's registers and the trace changes. The values of `burst_cnt` and `burst_cmd` after
it are the model's choice (log entry 9). -/
def Obligations.ForwardAndBackwardPrimitives : Prop :=
  ∀ s : State, s.burstCnt = 0 →
    (∃ t, exec .pForward s = .next t ∧ t.duty = ⟨cruise, 0, cruise, 0⟩ ∧ t.trace = s.trace ++ pForwardShows ∧
      t.burstCnt = 0 ∧ t.burstCmd = .forward ∧ t.mstate = s.mstate ∧ keepsCodecAndFault s t) ∧
    (∃ t, exec .pBackward s = .next t ∧ t.duty = ⟨0, cruise, 0, cruise⟩ ∧ t.trace = s.trace ++ pBackwardShows ∧
      t.burstCnt = 0 ∧ t.burstCmd = .backward ∧ t.mstate = s.mstate ∧ keepsCodecAndFault s t)

/-- The write sequence and the end state of `spin_left()` and `spin_right()` in both spin modes (42_actuator.md R179,
R180; which channel is which is the spec's decision D14); nothing but the Actuator's registers and the trace changes. The
values of `burst_cnt` and `burst_cmd` after it are the model's choice (log entry 9). -/
def Obligations.SpinPrimitives : Prop :=
  ∀ s : State, s.burstCnt = 0 →
    (∃ t, exec .pSpinLeft s = .next t ∧ t.trace = s.trace ++ pSpinLeftShows P.spinMode ∧
      t.burstCnt = 0 ∧ t.burstCmd = .spinLeft ∧ t.mstate = s.mstate ∧ keepsCodecAndFault s t ∧
      (P.spinMode = .counterRotate → t.duty = ⟨0, cruise, cruise, 0⟩) ∧
      (P.spinMode = .pivot → t.duty = ⟨0, 0, cruise, 0⟩)) ∧
    (∃ t, exec .pSpinRight s = .next t ∧ t.trace = s.trace ++ pSpinRightShows P.spinMode ∧
      t.burstCnt = 0 ∧ t.burstCmd = .spinRight ∧ t.mstate = s.mstate ∧ keepsCodecAndFault s t ∧
      (P.spinMode = .counterRotate → t.duty = ⟨cruise, 0, 0, cruise⟩) ∧
      (P.spinMode = .pivot → t.duty = ⟨cruise, 0, 0, 0⟩))

/-- 42_actuator.md R181: `stop()` zeroes the four pins in the order listed, with no burst and no wait: it does not raise
`busy`; nothing else changes. -/
def Obligations.StopPrimitive : Prop :=
  (∀ s : State, s.burstCnt = 0 →
    exec .pStop s = .next { s with
      duty := ⟨0, 0, 0, 0⟩
      trace := s.trace ++ [.call .stop, .write .af 0, .write .ab 0, .write .bf 0, .write .bb 0] }) ∧
  (∀ s : State, s.burstCnt = 0 →
    (clockCycle P ⟨false, .actIn true 0b10000#5⟩ s).burstCnt = 0 ∧
    (clockCycle P ⟨false, .actIn true 0b10000#5⟩ s).duty = ⟨0, 0, 0, 0⟩)

/-- The duties after a composed primitive depend on which it was and on nothing before, and are the rows of the table of
42_actuator.md R185 (in a busy state the model's reading, log entry 4); in the clock cycles of a burst the same pins
hold `MAX_DUTY`. -/
def Obligations.DutiesDependOnlyOnThePrimitive : Prop :=
  (∀ (q : Primitive) (s : State), ∃ t, exec (Instr.ofPrimitive q) s = .next t ∧
    t.duty = match q, P.spinMode with
      | .move .forward, _ => ⟨cruise, 0, cruise, 0⟩
      | .move .backward, _ => ⟨0, cruise, 0, cruise⟩
      | .move .spinLeft, .counterRotate => ⟨0, cruise, cruise, 0⟩
      | .move .spinLeft, .pivot => ⟨0, 0, cruise, 0⟩
      | .move .spinRight, .counterRotate => ⟨cruise, 0, 0, cruise⟩
      | .move .spinRight, .pivot => ⟨cruise, 0, 0, 0⟩
      | .stop, _ => ⟨0, 0, 0, 0⟩) ∧
  (∀ (m : Moving) (s : State), s.burstCnt = 0 →
    (clockCycle P ⟨false, .actIn true (Primitive.move m).code⟩ s).duty = match m, P.spinMode with
      | .forward, _ => ⟨P.maxDuty, 0, P.maxDuty, 0⟩
      | .backward, _ => ⟨0, P.maxDuty, 0, P.maxDuty⟩
      | .spinLeft, .counterRotate => ⟨0, P.maxDuty, P.maxDuty, 0⟩
      | .spinLeft, .pivot => ⟨0, 0, P.maxDuty, 0⟩
      | .spinRight, .counterRotate => ⟨P.maxDuty, 0, 0, P.maxDuty⟩
      | .spinRight, .pivot => ⟨P.maxDuty, 0, 0, 0⟩)

/-- A composed primitive called alone with a cruising duty of its own ends at that duty, clamped; the burst is at
`MAX_DUTY` all the same (42_actuator.md R170, R176). That `stop()` ignores the duty is the model's reading (log entry 20),
and the burst registers after it are its choice (log entry 9). A busy Actuator is `BusyBlockFinishesItsBurstFirst`. -/
def Obligations.ComposedPrimitiveWithItsOwnDuty : Prop :=
  ∀ (s : State) (q : Primitive) (d : Int) (rest : List Input), s.burstCnt = 0 →
    s.input = .composed q d :: rest →
    ∃ t, step s = .next t ∧ t.duty = dutyRow P.spinMode (clamp P d) q ∧
      t.trace = s.trace ++ callObs P q d ∧ t.burstCnt = 0 ∧ t.burstCmd = burstCmdAfter q s.burstCmd ∧
      t.mstate = s.mstate ∧ t.fault = s.fault ∧
      t.window = s.window ∧ t.fill = s.fill ∧ t.input = rest

/-- The channel-pair invariant at every instant, between the ordered writes too (42_actuator.md R182): after any number
of the writes of a composed primitive or of a per-channel primitive, if it held before; at reset; and after every
clock edge. -/
def Obligations.PairInvariantAtEveryInstant : Prop :=
  (∀ (p : Params) (m : Moving) (d : Int) (k : Nat) (s : State), s.duty.pairOk →
    (runWrites ((phase1 p m ++ phase2 p m d).take k) s).duty.pairOk) ∧
  (∀ (k : Nat) (s : State), s.duty.pairOk → (runWrites (stopWrites.take k) s).duty.pairOk) ∧
  (∀ (p : Params) (c : ChannelCall) (k : Nat) (s : State), s.duty.pairOk →
    (runWrites ((channelWrites p c).take k) s).duty.pairOk) ∧
  State.reset.duty.pairOk ∧
  (∀ (pins : Pins) (s : State), s.duty.pairOk → (clockCycle P pins s).duty.pairOk)

/-- An `act_cmd` that is none of the five legal codes is never driven by the state machine; an Actuator given one alone
writes nothing and does not become busy (42_actuator.md R188, the spec's decision D12). -/
def Obligations.IllegalActuatorCodeWritesNothing : Prop :=
  (∀ (pins : Pins) (s : State) (c : Code), (∀ v x, pins.drive ≠ .actIn v x) → commandCode pins s = some c →
    ∃ q : Primitive, c = q.code) ∧
  (∀ (s : State) (c : Code) (rest : List Input), (∀ q : Primitive, c ≠ q.code) → s.input = .actuator c :: rest →
    step s = .next { s with input := rest }) ∧
  (∀ (s : State) (c : Code), (∀ q : Primitive, c ≠ q.code) → s.burstCnt = 0 →
    sameRegisters (clockCycle P ⟨false, .actIn true c⟩ s) s)

/-- 42_actuator.md R189, for every parameter: a cruising duty of `MAX_DUTY` or more makes the cruise equal to the burst;
one of 0 or less makes a moving primitive end with the four pins at zero, with `mstate` still naming the movement (in a
busy state the model's reading, log entry 4). -/
def Obligations.CruiseDutyCorners : Prop :=
  (∀ (p : Params) (m : Moving), p.cruiseDuty ≥ p.maxDuty →
    cruiseDuties p (.move m) = burstDuties p (.move m)) ∧
  (∀ (p : Params) (sym : Symbol) (m : Movement) (s : State), p.cruiseDuty ≤ 0 → target sym = some m →
    s.mstate ≠ m →
    (applySymbol p sym s).duty = ⟨0, 0, 0, 0⟩ ∧ (applySymbol p sym s).mstate = m)

/-- The Actuator's registers stay legal: if they are, they are after every step, whatever the input (10_state.md R20, R24,
R25; 42_actuator.md R182). A step with no input pending and an event that finds the block busy are the model's (log entries
1 and 4). -/
def Obligations.ActuatorRegistersStayLegal : Prop :=
  ∀ s t : State, s.actuatorOk P → step s = .next t → t.actuatorOk P

/-- The Actuator's registers are legal at reset (10_state.md R36, the spec's decision D13, log entry 6). -/
def Obligations.ActuatorRegistersLegalAtReset : Prop :=
  State.reset.actuatorOk P

/-! ## The cycle level -/

/-- The state machine in one clock cycle (41_motion_fsm.md R155, the spec's decisions D9 and D11): with a legal code
presented and `burst_cnt` = 0 the strobes and `mstate` are as the rule gives them; in every other cycle without `rst`
`changed` is 0 and `mstate` holds, also where `act_cmd` is driven from outside (log entry 21), and where it is not,
`act_valid` is 0. -/
def Obligations.CycleLevelMotion : Prop :=
  (∀ (pins : Pins) (s : State) (sym : Symbol), pins.rst = false → presentedCode pins s = some sym.code →
    s.burstCnt = 0 →
    ((outputs pins s).changed = true ↔ sym.code ≠ 0b00000#5 ∧ sym.code ≠ s.mstate.code) ∧
    (outputs pins s).actCmd =
      (if sym.code = 0b00000#5 then some s.mstate.code
       else if sym.code ≠ s.mstate.code then some sym.code else none) ∧
    (clockCycle P pins s).mstate.code =
      (if sym.code ≠ 0b00000#5 ∧ sym.code ≠ s.mstate.code then sym.code else s.mstate.code)) ∧
  (∀ (pins : Pins) (s : State), pins.rst = false →
    (presentedCode pins s = none ∨ s.burstCnt ≠ 0 ∨ ∃ c, presentedCode pins s = some c ∧ symbolOfCode? c = none) →
    (outputs pins s).changed = false ∧ (clockCycle P pins s).mstate = s.mstate ∧
    ((∀ v x, pins.drive ≠ .actIn v x) → (outputs pins s).actCmd = none))

/-- Back-pressure (43_top_loop.md R203, 10_state.md R32, the spec's decisions D3, D6 and D9): the equation of `rx_ready`;
on the byte interface a byte is accepted exactly when it is offered with `rst` = `rx_flush` = 0 and `burst_cnt` = 0, and
an accepted byte is in the window and counted after the edge, one that is not accepted leaves both; while busy no byte is
accepted, no symbol is presented and neither the window nor `mstate` changes; a command is issued by the assembled
block only with `burst_cnt` = 0; and the cycles after a moving one is issued have `rx_ready` = 0 for `BURST_TICKS`
cycles, whatever is offered. -/
def Obligations.BackPressure : Prop :=
  (∀ (pins : Pins) (s : State),
    (outputs pins s).rxReady = true ↔ pins.rst = false ∧ flushPin pins = false ∧ s.burstCnt = 0) ∧
  (∀ (rst rxValid rxFlush : Bool) (d : Byte) (s : State),
    acceptedByte ⟨rst, .codec rxValid d rxFlush⟩ s =
      if rxValid = true ∧ rst = false ∧ rxFlush = false ∧ s.burstCnt = 0 then some d else none) ∧
  (∀ (d : Byte) (s : State), s.burstCnt = 0 →
    let t := clockCycle P ⟨false, .codec true d false⟩ s
    t.window = ⟨s.window.w1, s.window.w2, s.window.w3, s.window.w4, s.window.w5, s.window.w6, s.window.w7, d⟩ ∧
    ((7 ≤ s.fill.val ∧ ∃ y : Symbol, t.window.toList = frameOf y) → t.fill = 0) ∧
    (¬ (7 ≤ s.fill.val ∧ ∃ y : Symbol, t.window.toList = frameOf y) → t.fill.val = min (s.fill.val + 1) 8)) ∧
  (∀ (rxValid : Bool) (d : Byte) (s : State), rxValid = false ∨ s.burstCnt ≠ 0 →
    (clockCycle P ⟨false, .codec rxValid d false⟩ s).window = s.window ∧
    (clockCycle P ⟨false, .codec rxValid d false⟩ s).fill = s.fill) ∧
  (∀ (pins : Pins) (s : State), byteCycle pins = true → pins.rst = false → s.burstCnt ≠ 0 →
    acceptedByte pins s = none ∧ presentedCode pins s = none ∧ (clockCycle P pins s).mstate = s.mstate ∧
    (clockCycle P pins s).window = s.window) ∧
  (∀ (pins : Pins) (s : State) (c : Code), byteCycle pins = true → commandCode pins s = some c → s.burstCnt = 0) ∧
  (∀ (pins : Pins) (s : State) (m : Moving) (later : List Pins) (next : Pins), byteCycle pins = true →
    commandCode pins s = some (Primitive.move m).code →
    (∀ q ∈ later, q.rst = false) → later.length < P.burstTicks →
    (outputs next (clockRun P later (clockCycle P pins s))).rxReady = false)

/-- The burst at the cycle level (42_actuator.md R184, R187, the spec's decisions D17, D18 and D22; a command that arrives
at a busy Actuator is ignored, log entry 10): after the issuing cycle `busy` is 1 for exactly `BURST_TICKS` cycles, with
the burst duties, whatever is presented short of RESET; then it is 0 with the cruise duties. -/
def Obligations.BurstTiming : Prop :=
  ∀ (pins : Pins) (s : State) (m : Moving), s.burstCnt = 0 →
    commandCode pins s = some (Primitive.move m).code →
    (∀ later : List Pins, (∀ q ∈ later, q.rst = false) → later.length < P.burstTicks →
      (clockRun P later (clockCycle P pins s)).burstCnt = P.burstTicks - later.length ∧
      busy (clockRun P later (clockCycle P pins s)) = true ∧
      (clockRun P later (clockCycle P pins s)).burstCmd = m ∧
      (clockRun P later (clockCycle P pins s)).duty = burstDuties P (.move m)) ∧
    (∀ later : List Pins, (∀ q ∈ later, q.rst = false) → later.length = P.burstTicks →
      busy (clockRun P later (clockCycle P pins s)) = false ∧
      (clockRun P later (clockCycle P pins s)).duty = cruiseDuties P (.move m))

/-- The cycle level refines the event level (00_scope.md R6, 43_top_loop.md R202; 92_eei_decisions.md D2; the burst
registers at the event level are log entry 9): from a state with no burst in progress, one clock cycle of the byte
interface and then idle cycles until the burst is over leave the same registers as the event of that cycle, and a
cycle with no event leaves them as they are. -/
def Obligations.CycleLevelRefinesEventLevel : Prop :=
  ∀ (pins : Pins) (s : State), byteCycle pins = true → s.burstCnt = 0 →
    match eventOf pins s with
    | none => sameRegisters (clockCycle P pins s) s
    | some i => ∃ t, exec i s = .next t ∧
        sameRegisters
          (clockRun P (List.replicate (clockCycle P pins s).burstCnt idlePins) (clockCycle P pins s)) t

/-- 70_reset_and_hazards.md R263: with no frame accepted and no reset, a movement state and its duties persist: no
timeout stops the robot, in idle cycles, in cycles whose byte completes no frame, and in steps with no input pending, which
the model takes for time passing (log entry 1). -/
def Obligations.NoWatchdog : Prop :=
  (∀ (pins : Pins) (s : State), byteCycle pins = true → pins.rst = false → emittedSymbol pins s = none →
    s.burstCnt = 0 →
    (clockCycle P pins s).mstate = s.mstate ∧ (clockCycle P pins s).duty = s.duty ∧
    (clockCycle P pins s).burstCnt = 0) ∧
  (∀ (n : Nat) (s : State), s.burstCnt = 0 → sameRegisters (clockRun P (List.replicate n idlePins) s) s) ∧
  (∀ s : State, s.burstCnt = 0 → s.input = [] → step s = .next s)

/-! ## The assembled block -/

/-- The streaming block agrees with the source's loop (43_top_loop.md R204, there derived from 40_frame_codec.md R111): for any
snapshots, RXBYTE of every byte and a FLUSH after each snapshot leave the same `mstate` and duties and show the same
Actuator calls, returned values and writes as POLL of each snapshot. -/
def Obligations.StreamingAgreesWithTheLoop : Prop :=
  ∀ (bs : List (List Byte)) (s : State), s.fill = 0 → s.burstCnt = 0 →
    ∃ t u, runInstrs (bs.flatMap snapshotEvents) s = .next t ∧ pollAll bs s = .next u ∧
      t.mstate = u.mstate ∧ t.duty = u.duty ∧ t.fault = u.fault ∧ t.trace = u.trace ∧ t.fill = 0 ∧
      t.burstCnt = 0 ∧ u.burstCnt = 0

/-- The duties are those of the held state: an invariant of every step of the assembled block, at the event level and at
the cycle level, with `fault` staying 0 (43_top_loop.md R208, 10_state.md R26). A step with no input pending and an event
that finds the block busy are the model's (log entries 1 and 4). -/
def Obligations.DutiesStayThoseOfTheState : Prop :=
  ∀ s t : State, s.assembledOk P → step s = .next t → t.assembledOk P

/-- The same holds at reset whatever inputs of the assembled block are pending (43_top_loop.md R208; the reset duties are the
spec's decision D13, log entry 6). -/
def Obligations.DutiesAreThoseOfTheStateAtReset : Prop :=
  ∀ l : List Input, (∀ i ∈ l, assembledInput i = true) → State.assembledOk P { State.reset with input := l }

/-- At the end of every run of the assembled block, that is with no burst in progress, the duties are the cruise duties of
the held state and `fault` is 0 (43_top_loop.md R205, R208; the reset duties are log entry 6, steps with no input pending
and events that find the block busy log entries 1 and 4). -/
def Obligations.RunEndsWithTheDutiesOfItsState : Prop :=
  ∀ (l : List Input) (n : Nat) (t : State), (∀ i ∈ l, assembledInput i = true) →
    Host.Core.run Sys2Proof.core n ({ State.reset with input := l } : State) = .next t → t.burstCnt = 0 →
    t.fault = false ∧ t.duty = cruiseDuties P (prim t.mstate)

/-- Ownership (10_state.md R35): what each kind of event leaves to another owner. A frame command leaves the Codec's
registers and `fault`; an Actuator command these and `mstate`; FLUSH everything but `fill`; a byte leaves `fault`, writes
the window and `fill` as the Codec alone does, and, if it completes no frame, leaves `mstate`, and the duties but for the
end of a burst in progress. A symbol, a per-channel or a composed primitive presented alone leaves the Codec's registers,
and the last two `mstate` and `fault` too. In a clock cycle without `rst` the Codec's registers change only on the byte
interface, `mstate` only where `act_cmd` is not driven from outside, `fault` only by `sym_in`; and the Codec reads of the
other owners' registers only whether `burst_cnt` is 0. Every step only removes the input it takes and only adds to the
trace. The model's, not the spec's: the event-level clauses in a busy state (log entry 4), what one source driving a cycle
leaves alone, that is the clauses on the byte interface and on `act_cmd` driven from outside (log entry 21), and the
clauses on the pending inputs (log entry 1) and on the trace (log entry 2). -/
def Obligations.SingleWriter : Prop :=
  (∀ (sym : Symbol) (s : State), ∃ t, exec (Instr.ofSymbol sym) s = .next t ∧ keepsCodecAndFault s t) ∧
  (∀ (q : Primitive) (s : State), ∃ t, exec (Instr.ofPrimitive q) s = .next t ∧ keepsCodecAndFault s t ∧
    t.mstate = s.mstate) ∧
  (∀ s : State, exec .flush s = .next { s with fill := 0 }) ∧
  (∀ (b : Byte) (s : State), ∃ t, exec (.rxbyte b) s = .next t ∧ t.fault = s.fault ∧
    t.window = (codecAccept s.window s.fill b).window ∧ t.fill = (codecAccept s.window s.fill b).fill) ∧
  (∀ (b : Byte) (s : State), (codecAccept s.window s.fill b).emitted = none →
    ∃ t, exec (.rxbyte b) s = .next t ∧ t.mstate = s.mstate ∧ t.duty = (settle P s).duty ∧
      t.trace = (settle P s).trace) ∧
  (∀ (s : State) (c : Code) (rest : List Input), s.input = .symbol c :: rest →
    ∃ t, step s = .next t ∧ t.window = s.window ∧ t.fill = s.fill) ∧
  (∀ (s : State) (c : ChannelCall) (rest : List Input), s.input = .channel c :: rest →
    ∃ t, step s = .next t ∧ t.window = s.window ∧ t.fill = s.fill ∧ t.mstate = s.mstate ∧ t.fault = s.fault) ∧
  (∀ (s : State) (q : Primitive) (d : Int) (rest : List Input), s.input = .composed q d :: rest →
    ∃ t, step s = .next t ∧ t.window = s.window ∧ t.fill = s.fill ∧ t.mstate = s.mstate ∧ t.fault = s.fault) ∧
  (∀ (pins : Pins) (s : State), pins.rst = false →
    (byteCycle pins = false →
      (clockCycle P pins s).window = s.window ∧ (clockCycle P pins s).fill = s.fill) ∧
    ((∀ v x, pins.drive ≠ .symIn v x) → (clockCycle P pins s).fault = s.fault) ∧
    ((∃ v x, pins.drive = .actIn v x) → (clockCycle P pins s).mstate = s.mstate)) ∧
  (∀ (pins : Pins) (s t : State), s.window = t.window → s.fill = t.fill → (s.burstCnt = 0 ↔ t.burstCnt = 0) →
    (clockCycle P pins s).window = (clockCycle P pins t).window ∧
    (clockCycle P pins s).fill = (clockCycle P pins t).fill) ∧
  (∀ (i : Instr) (s : State), ∃ t new, exec i s = .next t ∧ t.input = s.input ∧ t.trace = s.trace ++ new) ∧
  (∀ s t : State, step s = .next t → t.input = s.input.tail ∧ ∃ new, t.trace = s.trace ++ new)

/-- THE MODEL'S CONVENTION for an event that finds the block busy (log entry 4, deduced from 42_actuator.md R183 and
43_top_loop.md R203): the burst in progress runs to its end first, and then the instruction is executed, or the legal
symbol, the legal command, the per-channel or the composed primitive presented alone; FLUSH and RESET do not wait. The
end is what the burst counter comes to by itself, and its writes are shown (log entry 22). -/
def Obligations.BusyBlockFinishesItsBurstFirst : Prop :=
  (∀ (i : Instr) (s : State), i ≠ .flush → i ≠ .reset → exec i s = exec i (settle P s)) ∧
  (∀ s : State, (tick P)^[s.burstCnt] s = settle P s ∧ (settle P s).burstCnt = 0) ∧
  (∀ (s : State) (i : Input) (rest : List Input), s.input = i :: rest →
    ((∃ c, i = .channel c) ∨ (∃ q d, i = .composed q d) ∨ (∃ y : Symbol, i = .symbol y.code) ∨
      (∃ q : Primitive, i = .actuator q.code)) →
    step s = step (settle P s)) ∧
  (∀ s : State, s.burstCnt ≠ 0 → (settle P s).duty = cruiseDuties P (.move s.burstCmd) ∧
    (settle P s).trace = s.trace ++ [.wait P.burstTime, .writeAll (cruiseDuties P (.move s.burstCmd))])

/-! ## The step -/

/-- A step runs the decoded instruction: where the next pending input is a raw word that decodes to an instruction, the
step is `exec` of it, in the state with that input removed; where a well-formed one does not decode, it changes nothing
but the pending inputs; and with none pending a burst in progress counts down one clock (log entries 1 and 13). -/
def Obligations.StepRunsTheDecodedInstruction : Prop :=
  (∀ (s : State) (r : Raw) (i : Instr) (rest : List Input), s.input = r.toInput :: rest →
    decodeInstr r = .ok i → step s = exec i { s with input := rest }) ∧
  (∀ (s : State) (r : Raw) (e : Reject) (rest : List Input), s.input = r.toInput :: rest → r.wf = true →
    decodeInstr r = .error e → step s = .next { s with input := rest }) ∧
  (∀ s : State, s.input = [] → step s = .next (tick P s))

/-- A table word placed with `withFetchWord` is what the next step runs, from every state, and nothing else is changed:
the model's convention (log entry 13), with its reading of the table's numbers (log entry 12). -/
def Obligations.FetchWordRunsTheInstruction : Prop :=
  ∀ (s : State) (nbits w : Nat) (i : Instr), decodeTableWord nbits w = some i →
    step (s.withFetchWord nbits w) = exec i s

/-! ## Observations -/

/-- The symbol output of a cycle (40_frame_codec.md R112, 30_encoding.md R80, the spec's decisions D7 and D9): `sym_valid`
is 1 exactly in a cycle whose accepted byte completes a frame, with `sym` the code of its symbol, the low five bits of
`W'[6]`; in every other cycle it is 0. On the byte interface that is the code the state machine is given, in the same
cycle; with `sym_in` it is `sym_in` under `sym_in_valid`; and with `act_cmd` driven from outside it is given none, the
model's reading (log entry 21). -/
def Obligations.SymbolPort : Prop :=
  (∀ (pins : Pins) (s : State) (c : Code), (outputs pins s).sym = some c ↔
    ∃ (d : Byte) (y : Symbol), pins = ⟨false, .codec true d false⟩ ∧ s.burstCnt = 0 ∧ 7 ≤ s.fill.val ∧
      [s.window.w1, s.window.w2, s.window.w3, s.window.w4, s.window.w5, s.window.w6, s.window.w7, d] = frameOf y ∧
      c = y.code ∧ c = s.window.w7.extractLsb' 0 5) ∧
  (∀ (pins : Pins) (s : State), presentedCode pins s =
    match pins.rst, pins.drive with
    | true, _ => none
    | false, .codec _ _ _ => (outputs pins s).sym
    | false, .symIn v c => if v then some c else none
    | false, .actIn _ _ => none)

/-- The writes shown account for the duties (43_top_loop.md R206, 10_state.md R24): the writes a step adds to the trace
take the duties before it to the duties after it, whatever the input, RESET, the end of a burst and a clock edge
included; so the trace since reset always accounts for the duties. That no write of a call is left out, overwritten ones
included, is `EveryCallShowsItsWrites`. How a write of all four at once is shown is the model's choice (log entry 22), and
so is a step with no input pending (log entry 1). -/
def Obligations.WritesShownAccountForTheDuties : Prop :=
  (∀ s t : State, step s = .next t → ∃ new, t.trace = s.trace ++ new ∧ t.duty = dutiesAfter new s.duty) ∧
  (∀ s t : State, s.writesShown → step s = .next t → t.writesShown)

/-- What one clock cycle without `rst` shows (43_top_loop.md R206, 42_actuator.md R187; log entries 10, 19 and 22): its ports,
and then the duty writes of its edge: phase 1 of a primitive issued, or the end of the wait and phase 2, or none. -/
def Obligations.CycleLevelWritesAreShown : Prop :=
  ∀ (pins : Pins) (s : State), pins.rst = false →
    (∀ q : Primitive, s.burstCnt = 0 → commandCode pins s = some q.code →
      (clockCycle P pins s).trace = s.trace ++ [.cycle (outputs pins s), .writeAll (burstDuties P q)]) ∧
    (s.burstCnt = 1 → (clockCycle P pins s).trace = s.trace ++
      [.cycle (outputs pins s), .wait P.burstTime, .writeAll (cruiseDuties P (.move s.burstCmd))]) ∧
    (1 < s.burstCnt ∨ (s.burstCnt = 0 ∧ ∀ q : Primitive, commandCode pins s ≠ some q.code) →
      (clockCycle P pins s).trace = s.trace ++ [.cycle (outputs pins s)])

/-- Every call shows its writes (43_top_loop.md R206, 42_actuator.md R176 to R181): what an instruction but RESET, or a
POLL, adds to the trace has, of duty writes and wait markers, the whole lists of the primitives it calls, in the order of
the calls, and nothing else; writes that are overwritten later and those of a REPEAT that ends at the duties it began with
are not left out. RESET's write is `ResetResult`, a busy block `BusyBlockFinishesItsBurstFirst`, a clock cycle
`CycleLevelWritesAreShown`, and a call with a duty of its own `ComposedPrimitiveWithItsOwnDuty`. -/
def Obligations.EveryCallShowsItsWrites : Prop :=
  (∀ (i : Instr) (s : State), s.burstCnt = 0 → i ≠ .reset → ∃ t new,
    exec i s = .next t ∧ t.trace = s.trace ++ new ∧ shownWrites new = (calls new).flatMap writesOf) ∧
  (∀ (buf : List Byte) (s : State), s.burstCnt = 0 → ∃ t new,
    poll buf s = .next t ∧ t.trace = s.trace ++ new ∧ shownWrites new = (calls new).flatMap writesOf)
end

