-- ==== Sys2Proof/Laws/State.lean ====
section
/-! SUPPORT. One lemma per register and per update of the state, so that no later proof unfolds a record update. -/

namespace Sys2Proof.Machine

variable (s : State)

@[simp] theorem setCodec_window (w : Window) (f : Fin 9) : (s.setCodec w f).window = w := rfl
@[simp] theorem setCodec_fill (w : Window) (f : Fin 9) : (s.setCodec w f).fill = f := rfl
@[simp] theorem setCodec_mstate (w : Window) (f : Fin 9) : (s.setCodec w f).mstate = s.mstate := rfl
@[simp] theorem setCodec_fault (w : Window) (f : Fin 9) : (s.setCodec w f).fault = s.fault := rfl
@[simp] theorem setCodec_duty (w : Window) (f : Fin 9) : (s.setCodec w f).duty = s.duty := rfl
@[simp] theorem setCodec_burstCnt (w : Window) (f : Fin 9) : (s.setCodec w f).burstCnt = s.burstCnt := rfl
@[simp] theorem setCodec_burstCmd (w : Window) (f : Fin 9) : (s.setCodec w f).burstCmd = s.burstCmd := rfl
@[simp] theorem setCodec_input (w : Window) (f : Fin 9) : (s.setCodec w f).input = s.input := rfl
@[simp] theorem setCodec_trace (w : Window) (f : Fin 9) : (s.setCodec w f).trace = s.trace := rfl

@[simp] theorem setFill_window (f : Fin 9) : (s.setFill f).window = s.window := rfl
@[simp] theorem setFill_fill (f : Fin 9) : (s.setFill f).fill = f := rfl
@[simp] theorem setFill_mstate (f : Fin 9) : (s.setFill f).mstate = s.mstate := rfl
@[simp] theorem setFill_fault (f : Fin 9) : (s.setFill f).fault = s.fault := rfl
@[simp] theorem setFill_duty (f : Fin 9) : (s.setFill f).duty = s.duty := rfl
@[simp] theorem setFill_burstCnt (f : Fin 9) : (s.setFill f).burstCnt = s.burstCnt := rfl
@[simp] theorem setFill_burstCmd (f : Fin 9) : (s.setFill f).burstCmd = s.burstCmd := rfl
@[simp] theorem setFill_input (f : Fin 9) : (s.setFill f).input = s.input := rfl
@[simp] theorem setFill_trace (f : Fin 9) : (s.setFill f).trace = s.trace := rfl

@[simp] theorem setMstate_window (m : Movement) : (s.setMstate m).window = s.window := rfl
@[simp] theorem setMstate_fill (m : Movement) : (s.setMstate m).fill = s.fill := rfl
@[simp] theorem setMstate_mstate (m : Movement) : (s.setMstate m).mstate = m := rfl
@[simp] theorem setMstate_fault (m : Movement) : (s.setMstate m).fault = s.fault := rfl
@[simp] theorem setMstate_duty (m : Movement) : (s.setMstate m).duty = s.duty := rfl
@[simp] theorem setMstate_burstCnt (m : Movement) : (s.setMstate m).burstCnt = s.burstCnt := rfl
@[simp] theorem setMstate_burstCmd (m : Movement) : (s.setMstate m).burstCmd = s.burstCmd := rfl
@[simp] theorem setMstate_input (m : Movement) : (s.setMstate m).input = s.input := rfl
@[simp] theorem setMstate_trace (m : Movement) : (s.setMstate m).trace = s.trace := rfl

@[simp] theorem setFault_window (b : Bool) : (s.setFault b).window = s.window := rfl
@[simp] theorem setFault_fill (b : Bool) : (s.setFault b).fill = s.fill := rfl
@[simp] theorem setFault_mstate (b : Bool) : (s.setFault b).mstate = s.mstate := rfl
@[simp] theorem setFault_fault (b : Bool) : (s.setFault b).fault = b := rfl
@[simp] theorem setFault_duty (b : Bool) : (s.setFault b).duty = s.duty := rfl
@[simp] theorem setFault_burstCnt (b : Bool) : (s.setFault b).burstCnt = s.burstCnt := rfl
@[simp] theorem setFault_burstCmd (b : Bool) : (s.setFault b).burstCmd = s.burstCmd := rfl
@[simp] theorem setFault_input (b : Bool) : (s.setFault b).input = s.input := rfl
@[simp] theorem setFault_trace (b : Bool) : (s.setFault b).trace = s.trace := rfl

@[simp] theorem setDuty_window (d : Duties) : (s.setDuty d).window = s.window := rfl
@[simp] theorem setDuty_fill (d : Duties) : (s.setDuty d).fill = s.fill := rfl
@[simp] theorem setDuty_mstate (d : Duties) : (s.setDuty d).mstate = s.mstate := rfl
@[simp] theorem setDuty_fault (d : Duties) : (s.setDuty d).fault = s.fault := rfl
@[simp] theorem setDuty_duty (d : Duties) : (s.setDuty d).duty = d := rfl
@[simp] theorem setDuty_burstCnt (d : Duties) : (s.setDuty d).burstCnt = s.burstCnt := rfl
@[simp] theorem setDuty_burstCmd (d : Duties) : (s.setDuty d).burstCmd = s.burstCmd := rfl
@[simp] theorem setDuty_input (d : Duties) : (s.setDuty d).input = s.input := rfl
@[simp] theorem setDuty_trace (d : Duties) : (s.setDuty d).trace = s.trace := rfl

@[simp] theorem setBurstCnt_window (n : Nat) : (s.setBurstCnt n).window = s.window := rfl
@[simp] theorem setBurstCnt_fill (n : Nat) : (s.setBurstCnt n).fill = s.fill := rfl
@[simp] theorem setBurstCnt_mstate (n : Nat) : (s.setBurstCnt n).mstate = s.mstate := rfl
@[simp] theorem setBurstCnt_fault (n : Nat) : (s.setBurstCnt n).fault = s.fault := rfl
@[simp] theorem setBurstCnt_duty (n : Nat) : (s.setBurstCnt n).duty = s.duty := rfl
@[simp] theorem setBurstCnt_burstCnt (n : Nat) : (s.setBurstCnt n).burstCnt = n := rfl
@[simp] theorem setBurstCnt_burstCmd (n : Nat) : (s.setBurstCnt n).burstCmd = s.burstCmd := rfl
@[simp] theorem setBurstCnt_input (n : Nat) : (s.setBurstCnt n).input = s.input := rfl
@[simp] theorem setBurstCnt_trace (n : Nat) : (s.setBurstCnt n).trace = s.trace := rfl

@[simp] theorem setBurstCmd_window (m : Moving) : (s.setBurstCmd m).window = s.window := rfl
@[simp] theorem setBurstCmd_fill (m : Moving) : (s.setBurstCmd m).fill = s.fill := rfl
@[simp] theorem setBurstCmd_mstate (m : Moving) : (s.setBurstCmd m).mstate = s.mstate := rfl
@[simp] theorem setBurstCmd_fault (m : Moving) : (s.setBurstCmd m).fault = s.fault := rfl
@[simp] theorem setBurstCmd_duty (m : Moving) : (s.setBurstCmd m).duty = s.duty := rfl
@[simp] theorem setBurstCmd_burstCnt (m : Moving) : (s.setBurstCmd m).burstCnt = s.burstCnt := rfl
@[simp] theorem setBurstCmd_burstCmd (m : Moving) : (s.setBurstCmd m).burstCmd = m := rfl
@[simp] theorem setBurstCmd_input (m : Moving) : (s.setBurstCmd m).input = s.input := rfl
@[simp] theorem setBurstCmd_trace (m : Moving) : (s.setBurstCmd m).trace = s.trace := rfl

@[simp] theorem setInput_window (l : List Input) : (s.setInput l).window = s.window := rfl
@[simp] theorem setInput_fill (l : List Input) : (s.setInput l).fill = s.fill := rfl
@[simp] theorem setInput_mstate (l : List Input) : (s.setInput l).mstate = s.mstate := rfl
@[simp] theorem setInput_fault (l : List Input) : (s.setInput l).fault = s.fault := rfl
@[simp] theorem setInput_duty (l : List Input) : (s.setInput l).duty = s.duty := rfl
@[simp] theorem setInput_burstCnt (l : List Input) : (s.setInput l).burstCnt = s.burstCnt := rfl
@[simp] theorem setInput_burstCmd (l : List Input) : (s.setInput l).burstCmd = s.burstCmd := rfl
@[simp] theorem setInput_input (l : List Input) : (s.setInput l).input = l := rfl
@[simp] theorem setInput_trace (l : List Input) : (s.setInput l).trace = s.trace := rfl

@[simp] theorem record_window (o : Obs) : (s.record o).window = s.window := rfl
@[simp] theorem record_fill (o : Obs) : (s.record o).fill = s.fill := rfl
@[simp] theorem record_mstate (o : Obs) : (s.record o).mstate = s.mstate := rfl
@[simp] theorem record_fault (o : Obs) : (s.record o).fault = s.fault := rfl
@[simp] theorem record_duty (o : Obs) : (s.record o).duty = s.duty := rfl
@[simp] theorem record_burstCnt (o : Obs) : (s.record o).burstCnt = s.burstCnt := rfl
@[simp] theorem record_burstCmd (o : Obs) : (s.record o).burstCmd = s.burstCmd := rfl
@[simp] theorem record_input (o : Obs) : (s.record o).input = s.input := rfl
@[simp] theorem record_trace (o : Obs) : (s.record o).trace = s.trace ++ [o] := rfl

@[simp] theorem writeDuties_window (d : Duties) : (s.writeDuties d).window = s.window := rfl
@[simp] theorem writeDuties_fill (d : Duties) : (s.writeDuties d).fill = s.fill := rfl
@[simp] theorem writeDuties_mstate (d : Duties) : (s.writeDuties d).mstate = s.mstate := rfl
@[simp] theorem writeDuties_fault (d : Duties) : (s.writeDuties d).fault = s.fault := rfl
@[simp] theorem writeDuties_duty (d : Duties) : (s.writeDuties d).duty = d := rfl
@[simp] theorem writeDuties_burstCnt (d : Duties) : (s.writeDuties d).burstCnt = s.burstCnt := rfl
@[simp] theorem writeDuties_burstCmd (d : Duties) : (s.writeDuties d).burstCmd = s.burstCmd := rfl
@[simp] theorem writeDuties_input (d : Duties) : (s.writeDuties d).input = s.input := rfl
@[simp] theorem writeDuties_trace (d : Duties) : (s.writeDuties d).trace = s.trace ++ [.writeAll d] := rfl

@[simp] theorem resetBlock_window : (resetBlock s).window = State.reset.window := rfl
@[simp] theorem resetBlock_fill : (resetBlock s).fill = State.reset.fill := rfl
@[simp] theorem resetBlock_mstate : (resetBlock s).mstate = State.reset.mstate := rfl
@[simp] theorem resetBlock_fault : (resetBlock s).fault = State.reset.fault := rfl
@[simp] theorem resetBlock_duty : (resetBlock s).duty = State.reset.duty := rfl
@[simp] theorem resetBlock_burstCnt : (resetBlock s).burstCnt = State.reset.burstCnt := rfl
@[simp] theorem resetBlock_burstCmd : (resetBlock s).burstCmd = State.reset.burstCmd := rfl
@[simp] theorem resetBlock_input : (resetBlock s).input = s.input := rfl
@[simp] theorem resetBlock_trace : (resetBlock s).trace = s.trace ++ [.writeAll State.reset.duty] := rfl

end Sys2Proof.Machine
end

