-- ==== Sys2Proof/Laws/Actuator.lean ====
section
/-! SUPPORT. The Actuator: clamp, duty rows, ordered writes, and what one composed primitive leaves and shows
(42_actuator.md R172 to R185). -/

namespace Sys2Proof.Machine

theorem clamp_le (p : Params) (v : Int) : clamp p v ≤ p.maxDuty := by
  unfold clamp
  split_ifs <;> omega

@[simp] theorem clamp_maxDuty (p : Params) : clamp p p.maxDuty = p.maxDuty := by
  unfold clamp
  split_ifs <;> omega

@[simp] theorem clamp_zero (p : Params) : clamp p 0 = 0 := by
  unfold clamp
  split_ifs <;> omega

theorem dutyRow_pairOk (mode : SpinMode) (c : Nat) (prim : Primitive) : (dutyRow mode c prim).pairOk := by
  rcases prim with m | _
  · cases m <;> cases mode <;> simp [Duties.pairOk, dutyRow]
  · simp [Duties.pairOk, dutyRow]

theorem dutyRow_inRange (p : Params) (mode : SpinMode) {c : Nat} (h : c ≤ p.maxDuty) (prim : Primitive) :
    (dutyRow mode c prim).inRange p := by
  rcases prim with m | _
  · cases m <;> cases mode <;> simp [Duties.inRange, dutyRow, h]
  · simp [Duties.inRange, dutyRow]

/-! ## Ordered writes -/

theorem runWrites_cons (w : PinWrite) (ws : List PinWrite) (s : State) :
    runWrites (w :: ws) s = runWrites ws (writePin s w) := rfl

/-- Ordered writes change the duties and the trace, one write after another, and no other register. -/
theorem runWrites_eq (ws : List PinWrite) (s : State) :
    runWrites ws s =
      { s with duty := ws.foldl (fun d w => d.set w.1 w.2) s.duty, trace := s.trace ++ ws.map writeObs } := by
  induction ws generalizing s with
  | nil => simp [runWrites]
  | cons w ws ih =>
    rw [runWrites_cons, ih]
    simp [writePin, State.setDuty, State.record, writeObs]

@[simp] theorem runWrites_window (ws : List PinWrite) (s : State) : (runWrites ws s).window = s.window := by
  rw [runWrites_eq]
@[simp] theorem runWrites_fill (ws : List PinWrite) (s : State) : (runWrites ws s).fill = s.fill := by
  rw [runWrites_eq]
@[simp] theorem runWrites_mstate (ws : List PinWrite) (s : State) : (runWrites ws s).mstate = s.mstate := by
  rw [runWrites_eq]
@[simp] theorem runWrites_fault (ws : List PinWrite) (s : State) : (runWrites ws s).fault = s.fault := by
  rw [runWrites_eq]
@[simp] theorem runWrites_burstCnt (ws : List PinWrite) (s : State) : (runWrites ws s).burstCnt = s.burstCnt := by
  rw [runWrites_eq]
@[simp] theorem runWrites_burstCmd (ws : List PinWrite) (s : State) : (runWrites ws s).burstCmd = s.burstCmd := by
  rw [runWrites_eq]
@[simp] theorem runWrites_input (ws : List PinWrite) (s : State) : (runWrites ws s).input = s.input := by
  rw [runWrites_eq]
@[simp] theorem runWrites_trace (ws : List PinWrite) (s : State) :
    (runWrites ws s).trace = s.trace ++ ws.map writeObs := by
  rw [runWrites_eq]

/-- Phase 1 leaves the burst duties, phase 2 after it the cruise duties, whatever the duties were. -/
theorem phases_duty (p : Params) (m : Moving) (d : Int) (q : Duties) :
    (phase1 p m).foldl (fun d w => d.set w.1 w.2) q = burstDuties p (.move m) ∧
    (phase2 p m d).foldl (fun d w => d.set w.1 w.2) (burstDuties p (.move m))
      = dutyRow p.spinMode (clamp p d) (.move m) := by
  cases m <;> cases hm : p.spinMode <;>
    simp [phase1, phase2, burstWrites, cruiseWrites, roleA, roleB, hm, chForward, chBackward, chStop, fwdPin, bwdPin,
      Duties.set, burstDuties, dutyRow]

theorem stopWrites_duty (q : Duties) : stopWrites.foldl (fun d w => d.set w.1 w.2) q = ⟨0, 0, 0, 0⟩ := rfl

/-- Everything one composed primitive does: the duties of R185, the burst registers of a moving one, and the
observations; no other register changes. -/
theorem callPrimitive_eq (p : Params) (prim : Primitive) (d : Int) (s : State) :
    callPrimitive p prim d s =
      { s with
        duty := dutyRow p.spinMode (clamp p d) prim
        burstCnt := match prim with
          | .stop => s.burstCnt
          | .move _ => 0
        burstCmd := match prim with
          | .stop => s.burstCmd
          | .move m => m
        trace := s.trace ++ callObs p prim d } := by
  rcases prim with m | _
  · obtain ⟨h1, h2⟩ := phases_duty p m d s.duty
    simp only [callPrimitive, runWrites_eq, State.record, State.setBurstCmd, State.setBurstCnt, h1, h2]
    simp [callObs]
  · simp only [callPrimitive, runWrites_eq, State.record, stopWrites_duty]
    simp [callObs, dutyRow]

@[simp] theorem callPrimitive_window (p : Params) (prim : Primitive) (d : Int) (s : State) :
    (callPrimitive p prim d s).window = s.window := by rw [callPrimitive_eq]
@[simp] theorem callPrimitive_fill (p : Params) (prim : Primitive) (d : Int) (s : State) :
    (callPrimitive p prim d s).fill = s.fill := by rw [callPrimitive_eq]
@[simp] theorem callPrimitive_mstate (p : Params) (prim : Primitive) (d : Int) (s : State) :
    (callPrimitive p prim d s).mstate = s.mstate := by rw [callPrimitive_eq]
@[simp] theorem callPrimitive_fault (p : Params) (prim : Primitive) (d : Int) (s : State) :
    (callPrimitive p prim d s).fault = s.fault := by rw [callPrimitive_eq]
@[simp] theorem callPrimitive_input (p : Params) (prim : Primitive) (d : Int) (s : State) :
    (callPrimitive p prim d s).input = s.input := by rw [callPrimitive_eq]
@[simp] theorem callPrimitive_duty (p : Params) (prim : Primitive) (d : Int) (s : State) :
    (callPrimitive p prim d s).duty = dutyRow p.spinMode (clamp p d) prim := by rw [callPrimitive_eq]
@[simp] theorem callPrimitive_trace (p : Params) (prim : Primitive) (d : Int) (s : State) :
    (callPrimitive p prim d s).trace = s.trace ++ callObs p prim d := by rw [callPrimitive_eq]
theorem callPrimitive_burstCnt (p : Params) (prim : Primitive) (d : Int) (s : State) (h : s.burstCnt = 0) :
    (callPrimitive p prim d s).burstCnt = 0 := by
  rw [callPrimitive_eq]
  cases prim <;> simp [h]

theorem callPrimitive_burstCmd (p : Params) (prim : Primitive) (d : Int) (s : State) :
    (callPrimitive p prim d s).burstCmd =
      match prim with
      | .stop => s.burstCmd
      | .move m => m := by rw [callPrimitive_eq]

/-! ## A burst in progress -/

@[simp] theorem settle_window (p : Params) (s : State) : (settle p s).window = s.window := by
  unfold settle; split_ifs <;> rfl
@[simp] theorem settle_fill (p : Params) (s : State) : (settle p s).fill = s.fill := by
  unfold settle; split_ifs <;> rfl
@[simp] theorem settle_mstate (p : Params) (s : State) : (settle p s).mstate = s.mstate := by
  unfold settle; split_ifs <;> rfl
@[simp] theorem settle_fault (p : Params) (s : State) : (settle p s).fault = s.fault := by
  unfold settle; split_ifs <;> rfl
@[simp] theorem settle_burstCmd (p : Params) (s : State) : (settle p s).burstCmd = s.burstCmd := by
  unfold settle; split_ifs <;> rfl
@[simp] theorem settle_input (p : Params) (s : State) : (settle p s).input = s.input := by
  unfold settle; split_ifs <;> rfl
/-- What letting the rest of a burst elapse shows: nothing if there is none. -/
def settleObs (p : Params) (s : State) : List Obs :=
  if s.burstCnt = 0 then [] else endBurstObs p s
theorem settleObs_of_idle (p : Params) (s : State) (h : s.burstCnt = 0) : settleObs p s = [] := by
  unfold settleObs; rw [if_pos h]
@[simp] theorem settle_trace (p : Params) (s : State) : (settle p s).trace = s.trace ++ settleObs p s := by
  unfold settle settleObs
  split_ifs
  · simp
  · simp [endBurst, endBurstObs]
@[simp] theorem settle_burstCnt (p : Params) (s : State) : (settle p s).burstCnt = 0 := by
  unfold settle
  split_ifs with h
  · exact h
  · rfl
theorem settle_duty (p : Params) (s : State) :
    (settle p s).duty = if s.burstCnt = 0 then s.duty else cruiseDuties p (.move s.burstCmd) := by
  unfold settle; split_ifs <;> rfl
theorem settle_of_idle (p : Params) (s : State) (h : s.burstCnt = 0) : settle p s = s := by
  unfold settle; rw [if_pos h]

/-- The counter runs out by itself, and what it leaves is what `settle` says (42_actuator.md R183, R187). -/
theorem tick_iterate (p : Params) (n : Nat) (s : State) (h : s.burstCnt = n) : (tick p)^[n] s = settle p s := by
  induction n generalizing s with
  | zero => rw [settle_of_idle p s h]; rfl
  | succ n ih =>
    rw [Function.iterate_succ_apply]
    by_cases hn : n = 0
    · subst hn
      simp [tick, settle, h]
    · have : (tick p s).burstCnt = n := by simp [tick, h, hn]
      rw [ih _ this]
      simp [tick, settle, h, hn, endBurst, State.setBurstCnt, State.writeDuties, State.setDuty, State.record]

end Sys2Proof.Machine
end

