-- ==== Sys2Proof/Laws/Decode.lean ====
section
/-! SUPPORT. The small lemmas of the encodings: each code names one thing and is read back as it. -/

namespace Sys2Proof

theorem mapDir_eq_some {c : Byte} {s : Symbol} : mapDir c = some s ↔ c = s.dirCode := by
  constructor
  · intro h
    unfold mapDir at h
    split_ifs at h <;> (cases h; assumption)
  · rintro rfl
    cases s <;> decide

@[simp] theorem mapDir_dirCode (s : Symbol) : mapDir s.dirCode = some s := mapDir_eq_some.2 rfl

theorem symbolOfCode?_eq_some {c : Code} {s : Symbol} : symbolOfCode? c = some s ↔ c = s.code := by
  constructor
  · intro h
    unfold symbolOfCode? at h
    split_ifs at h <;> (cases h; assumption)
  · rintro rfl
    cases s <;> decide

@[simp] theorem symbolOfCode?_code (s : Symbol) : symbolOfCode? s.code = some s := symbolOfCode?_eq_some.2 rfl

theorem primitiveOfCode?_eq_some {c : Code} {p : Primitive} : primitiveOfCode? c = some p ↔ c = p.code := by
  constructor
  · intro h
    unfold primitiveOfCode? at h
    split_ifs at h <;> (cases h; assumption)
  · rintro rfl
    rcases p with m | _
    · cases m <;> decide
    · decide

@[simp] theorem primitiveOfCode?_code (p : Primitive) : primitiveOfCode? p.code = some p :=
  primitiveOfCode?_eq_some.2 rfl

@[simp] theorem movementOfCode?_code (m : Movement) : movementOfCode? m.code = some m := by
  cases m <;> decide

@[simp] theorem length_frameOf (s : Symbol) : (frameOf s).length = 8 := rfl

/-- A sequence carries a symbol exactly when it is that symbol's frame (30_encoding.md R74, R83). -/
theorem frameSymbol?_eq_some {f : List Byte} {s : Symbol} : frameSymbol? f = some s ↔ f = frameOf s := by
  constructor
  · intro h
    unfold frameSymbol? at h
    split_ifs at h with hv
    simp only [validFrame, Bool.and_eq_true, beq_iff_eq, FRAME_LEN, TAIL_OFF, DIR_OFF] at hv h
    obtain ⟨⟨⟨hlen, hhead⟩, htail⟩, -⟩ := hv
    rcases f with _ | ⟨a, _ | ⟨b, _ | ⟨c, _ | ⟨d, _ | ⟨e, _ | ⟨g, _ | ⟨x, _ | ⟨y, _ | ⟨z, f⟩⟩⟩⟩⟩⟩⟩⟩⟩ <;>
      simp at hlen
    simp only [List.getElem?_cons_succ, List.getElem?_cons_zero, Option.bind_some, mapDir_eq_some] at h
    simp_all [frameOf, HEADER]
  · rintro rfl
    cases s <;> decide

@[simp] theorem frameSymbol?_frameOf (s : Symbol) : frameSymbol? (frameOf s) = some s := frameSymbol?_eq_some.2 rfl

theorem frameOf_injective {s t : Symbol} (h : frameOf s = frameOf t) : s = t := by
  have := frameSymbol?_frameOf s
  rw [h, frameSymbol?_frameOf] at this
  exact (Option.some.inj this).symm

/-- Only a sequence of eight bytes that begins with `LEAD` carries a symbol. -/
theorem frameSymbol?_shape {f : List Byte} {s : Symbol} (h : frameSymbol? f = some s) :
    f.length = 8 ∧ f[0]? = some LEAD := by
  rw [frameSymbol?_eq_some] at h
  subst h
  exact ⟨rfl, rfl⟩

theorem decodeFrame_eq_ok {f : List Byte} {s : Symbol} : decodeFrame f = .ok s ↔ frameSymbol? f = some s := by
  unfold decodeFrame frameSymbol? validFrame
  generalize f[DIR_OFF]?.bind mapDir = o
  by_cases h1 : f.length = FRAME_LEN <;> by_cases h2 : f.take 6 = HEADER <;>
    by_cases h3 : f[TAIL_OFF]? = some TAIL <;> cases o <;> simp [h1, h2, h3]

end Sys2Proof
end

