-- ==== Sys2Proof/Laws/Codec.lean ====
section
/-! SUPPORT. The Frame Codec: valid frames of a buffer are disjoint, `decode` emits exactly the valid frames of its
buffer in order, and the streaming Codec emits the same (40_frame_codec.md R101, R108, R111). -/

namespace Sys2Proof.Machine

/-- The symbol of the candidate that starts at `k`. -/
abbrev frameAt (buf : List Byte) (k : Nat) : Option Symbol :=
  frameSymbol? (memRead buf k 8)

theorem memRead_getElem? (buf : List Byte) (k n i : Nat) (h : i < n) : (memRead buf k n)[i]? = buf[k + i]? := by
  simp [memRead, h]

theorem memRead_append (pre rest : List Byte) (k : Nat) (h : k + 8 ≤ pre.length) :
    memRead (pre ++ rest) k 8 = memRead pre k 8 := by
  have : k ≤ pre.length := by omega
  simp only [memRead, List.drop_append_of_le_length this]
  rw [List.take_append_of_le_length (by simp; omega)]

theorem frameAt_bound {buf : List Byte} {k : Nat} {s : Symbol} (h : frameAt buf k = some s) : k + 8 ≤ buf.length := by
  have := (frameSymbol?_shape h).1
  simp [memRead] at this
  omega

theorem frameAt_lead {buf : List Byte} {k : Nat} {s : Symbol} (h : frameAt buf k = some s) : buf[k]? = some LEAD := by
  have := (frameSymbol?_shape h).2
  rwa [memRead_getElem? _ _ _ _ (by omega)] at this

/-- Inside a valid frame only offset 0 holds `LEAD` (30_encoding.md R71). -/
theorem frameOf_lead_only (s : Symbol) (i : Nat) (h0 : 0 < i) (h8 : i < 8) : (frameOf s)[i]? ≠ some LEAD := by
  have : i = 1 ∨ i = 2 ∨ i = 3 ∨ i = 4 ∨ i = 5 ∨ i = 6 ∨ i = 7 := by omega
  rcases this with h | h | h | h | h | h | h <;> subst h <;> cases s <;> decide

/-- No valid frame begins inside another (30_encoding.md R84). -/
theorem frameAt_disjoint {buf : List Byte} {k j : Nat} {s : Symbol} (h : frameAt buf k = some s)
    (hk : k < j) (hj : j < k + 8) : frameAt buf j = none := by
  by_contra hne
  obtain ⟨t, ht⟩ := Option.ne_none_iff_exists'.1 hne
  have h1 := frameAt_lead ht
  have h2 := frameSymbol?_eq_some.1 h
  have h3 := frameOf_lead_only s (j - k) (by omega) (by omega)
  rw [← h2, memRead_getElem? _ _ _ _ (by omega), show k + (j - k) = j by omega] at h3
  exact h3 h1

/-- The valid frames of a buffer, in order of their position. -/
abbrev framesIn (buf : List Byte) : List Symbol :=
  (List.range buf.length).filterMap (frameAt buf)

theorem filterMap_range'_none {buf : List Byte} {pos n : Nat} (h : ∀ k, pos ≤ k → k < pos + n → frameAt buf k = none) :
    (List.range' pos n).filterMap (frameAt buf) = [] := by
  rw [List.filterMap_eq_nil_iff]
  intro k hk
  rw [List.mem_range'_1] at hk
  exact h k hk.1 hk.2

/-- What each arm of the scan says of the candidate at `pos`. -/
theorem scanArm_cases (buf : List Byte) (pos : Nat) :
    (scanArm buf pos = .exhausted ∧ buf.length ≤ pos) ∨
    (scanArm buf pos = .incomplete ∧ buf.length < pos + 8) ∨
    ((scanArm buf pos = .skip ∨ scanArm buf pos = .resync) ∧ pos < buf.length ∧ frameAt buf pos = none) ∨
    (∃ s, scanArm buf pos = .accept s ∧ frameAt buf pos = some s) := by
  unfold scanArm
  split
  · rename_i h
    exact .inl ⟨rfl, List.getElem?_eq_none_iff.1 h⟩
  · rename_i b hb
    have hlt : pos < buf.length := (List.getElem?_eq_some_iff.1 hb).1
    split_ifs with h1 h2
    · refine .inr (.inr (.inl ⟨.inl rfl, hlt, ?_⟩))
      by_contra hne
      obtain ⟨t, ht⟩ := Option.ne_none_iff_exists'.1 hne
      have := frameAt_lead ht
      rw [hb] at this
      exact h1 (Option.some.inj this)
    · exact .inr (.inl ⟨rfl, by simp only [FRAME_LEN] at h2; omega⟩)
    · cases hf : frameSymbol? (memRead buf pos FRAME_LEN) with
      | none => exact .inr (.inr (.inl ⟨.inr rfl, hlt, hf⟩))
      | some s => exact .inr (.inr (.inr ⟨s, rfl, hf⟩))

/-- From `pos` on, with enough turns, the scan emits the valid frames that start there or later. -/
theorem scan_eq (buf : List Byte) (fuel pos : Nat) (h : buf.length ≤ pos + fuel) :
    scan fuel buf pos = (List.range' pos (buf.length - pos)).filterMap (frameAt buf) := by
  induction fuel generalizing pos with
  | zero =>
    rw [show buf.length - pos = 0 by omega]
    rfl
  | succ fuel ih =>
    unfold scan
    rcases scanArm_cases buf pos with ⟨ha, hl⟩ | ⟨ha, hl⟩ | ⟨ha, hlt, hn⟩ | ⟨s, ha, hs⟩
    · rw [ha, show buf.length - pos = 0 by omega]
      rfl
    · rw [ha, filterMap_range'_none]
      intro k hk _
      by_contra hne
      obtain ⟨t, ht⟩ := Option.ne_none_iff_exists'.1 hne
      have := frameAt_bound ht
      omega
    · have hr : (List.range' pos (buf.length - pos)).filterMap (frameAt buf)
          = (List.range' (pos + 1) (buf.length - (pos + 1))).filterMap (frameAt buf) := by
        rw [show buf.length - pos = (buf.length - (pos + 1)) + 1 by omega, List.range'_succ,
          List.filterMap_cons_none hn]
      rw [hr]
      rcases ha with ha | ha <;> rw [ha] <;> exact ih (pos + 1) (by omega)
    · have hb := frameAt_bound hs
      rw [ha]
      show s :: scan fuel buf (pos + 8) = _
      rw [ih (pos + 8) (by omega), show buf.length - pos = (7 + (buf.length - (pos + 8))) + 1 by omega, List.range'_succ,
        List.filterMap_cons_some hs, ← List.range'_append_1, List.filterMap_append,
        filterMap_range'_none (pos := pos + 1) (n := 7) fun k h1 h2 => frameAt_disjoint hs (by omega) (by omega),
        List.nil_append, show pos + 1 + 7 = pos + 8 by omega]

/-- `decode` emits exactly the valid frames of its buffer, in order (40_frame_codec.md R101). -/
theorem decodeBuffer_eq_framesIn (buf : List Byte) : decodeBuffer buf = framesIn buf := by
  rw [decodeBuffer, scan_eq buf _ 0 (by omega), framesIn, List.range_eq_range', Nat.sub_zero]

/-- One more byte can complete one more frame, the one that ends with it. -/
theorem framesIn_snoc (pre : List Byte) (b : Byte) :
    framesIn (pre ++ [b]) = framesIn pre ++
      (if 7 ≤ pre.length then (frameAt (pre ++ [b]) (pre.length - 7)).toList else []) := by
  have cut : ∀ buf : List Byte, framesIn buf = (List.range' 0 (buf.length - 7)).filterMap (frameAt buf) := by
    intro buf
    have hl : buf.length = (buf.length - 7) + (buf.length - (buf.length - 7)) := by omega
    rw [framesIn, List.range_eq_range']
    conv_lhs => rw [hl]
    rw [← List.range'_append_1, List.filterMap_append, filterMap_range'_none (pos := 0 + (buf.length - 7)), List.append_nil]
    intro k h1 _
    by_contra hne
    obtain ⟨t, ht⟩ := Option.ne_none_iff_exists'.1 hne
    have := frameAt_bound ht
    omega
  have old : (List.range' 0 (pre.length - 7)).filterMap (frameAt (pre ++ [b])) = framesIn pre := by
    rw [cut pre]
    apply List.filterMap_congr
    intro k hk
    rw [List.mem_range'_1] at hk
    simp only [frameAt]
    rw [memRead_append _ _ _ (by omega)]
  rw [cut (pre ++ [b])]
  split_ifs with h
  · rw [show (pre ++ [b]).length - 7 = (pre.length - 7) + 1 by simp; omega, ← List.range'_append_1,
      List.filterMap_append, old, Nat.zero_add]
    cases hf : frameAt (pre ++ [b]) (pre.length - 7) <;> simp [hf]
  · rw [show (pre ++ [b]).length - 7 = pre.length - 7 by simp; omega, old, List.append_nil]

/-! ## The streaming Codec -/

@[simp] theorem length_toList (w : Window) : w.toList.length = 8 := rfl

theorem shift_toList (w : Window) (b : Byte) : (w.shift b).toList = (w.toList ++ [b]).drop 1 := rfl

@[simp] theorem codecAccept_window (w : Window) (f : Fin 9) (b : Byte) : (codecAccept w f b).window = w.shift b := by
  unfold codecAccept
  dsimp only
  split_ifs
  · split <;> rfl
  · rfl

/-- What one accepted byte does to `fill` and what it emits (40_frame_codec.md R108). -/
theorem codecAccept_cases (w : Window) (f : Fin 9) (b : Byte) :
    (f.val < 7 ∧ (codecAccept w f b).fill.val = f.val + 1 ∧ (codecAccept w f b).emitted = none) ∨
    (7 ≤ f.val ∧ frameSymbol? (w.shift b).toList = none ∧ (codecAccept w f b).fill.val = 8 ∧
      (codecAccept w f b).emitted = none) ∨
    (∃ s, 7 ≤ f.val ∧ frameSymbol? (w.shift b).toList = some s ∧ (codecAccept w f b).fill.val = 0 ∧
      (codecAccept w f b).emitted = some s) := by
  have hf := f.isLt
  by_cases h : f.val < 7
  · refine .inl ⟨h, ?_⟩
    have : (fillSucc f).val ≠ 8 := by simp only [fillSucc]; omega
    have hfill : (codecAccept w f b).fill = fillSucc f := by simp only [codecAccept, if_neg this]
    refine ⟨?_, by simp only [codecAccept, if_neg this]⟩
    rw [hfill]
    simp only [fillSucc]
    omega
  · have h8 : (fillSucc f).val = 8 := by simp only [fillSucc]; omega
    cases hs : frameSymbol? (w.shift b).toList with
    | none => exact .inr (.inl ⟨by omega, rfl, by simp [codecAccept, h8, hs], by simp [codecAccept, h8, hs]⟩)
    | some s => exact .inr (.inr ⟨s, by omega, rfl, by simp [codecAccept, h8, hs], by simp [codecAccept, h8, hs]⟩)

theorem codecFeed_append (w : Window) (f : Fin 9) (xs ys : List Byte) :
    codecFeed w f (xs ++ ys) =
      ((codecFeed w f xs).1 ++ (codecFeed (codecFeed w f xs).2.1 (codecFeed w f xs).2.2 ys).1,
        (codecFeed (codecFeed w f xs).2.1 (codecFeed w f xs).2.2 ys).2) := by
  induction xs generalizing w f with
  | nil => rfl
  | cons b xs ih => simp [codecFeed, ih, List.append_assoc]

theorem codecFeed_singleton (w : Window) (f : Fin 9) (b : Byte) :
    codecFeed w f [b] = ((codecAccept w f b).emitted.toList, (codecAccept w f b).window, (codecAccept w f b).fill) := by
  simp [codecFeed]

/-- After the bytes `pre` of a snapshot: what the Codec emitted, and what its window and `fill` then hold. -/
theorem codecFeed_spec (w : Window) (pre : List Byte) :
    (codecFeed w 0 pre).1 = framesIn pre ∧
    (codecFeed w 0 pre).2.1.toList = (w.toList ++ pre).drop pre.length ∧
    (codecFeed w 0 pre).2.2.val ≤ pre.length ∧
    ((codecFeed w 0 pre).2.2.val < 8 → (codecFeed w 0 pre).2.2.val = pre.length ∨
      ∃ s, (codecFeed w 0 pre).2.2.val + 8 ≤ pre.length ∧
        frameAt pre (pre.length - (codecFeed w 0 pre).2.2.val - 8) = some s) := by
  induction pre using List.reverseRecOn with
  | nil => exact ⟨rfl, rfl, Nat.le_refl _, fun _ => .inl rfl⟩
  | append_singleton pre b ih =>
    rw [codecFeed_append, codecFeed_singleton]
    generalize codecFeed w 0 pre = r at ih ⊢
    obtain ⟨syms, w', f⟩ := r
    obtain ⟨h1, h2, h3, h4⟩ := ih
    dsimp only at h1 h2 h3 h4 ⊢
    have hwin : (w'.shift b).toList = (w.toList ++ (pre ++ [b])).drop (pre ++ [b]).length := by
      rw [shift_toList, h2, ← List.append_assoc, List.length_append, List.length_singleton,
        ← List.drop_append_of_le_length (by simp), List.drop_drop]
    have hcand : 7 ≤ pre.length → (w'.shift b).toList = memRead (pre ++ [b]) (pre.length - 7) 8 := by
      intro h7
      rw [hwin, List.drop_append, memRead]
      simp only [length_toList, List.length_append, List.length_singleton]
      rw [List.drop_eq_nil_of_le (by simp; omega), List.nil_append, show pre.length + 1 - 8 = pre.length - 7 by omega,
        List.take_of_length_le (by simp; omega)]
    rw [framesIn_snoc, codecAccept_window]
    refine ⟨?_, hwin, ?_⟩
    · rcases codecAccept_cases w' f b with ⟨hf, _, he⟩ | ⟨hf, hs, _, he⟩ | ⟨s, hf, hs, _, he⟩
      · rw [he, h1]
        congr 1
        split_ifs with h7
        · rcases h4 (by omega) with h | ⟨s, hle, hs⟩
          · omega
          · have hs' : frameAt (pre ++ [b]) (pre.length - f.val - 8) = some s := by
              rw [frameAt, memRead_append _ _ _ (by omega)]
              exact hs
            rw [frameAt_disjoint hs' (by omega) (by omega)]
        · rfl
      · rw [he, h1, if_pos (by omega), frameAt, ← hcand (by omega), hs]
      · rw [he, h1, if_pos (by omega), frameAt, ← hcand (by omega), hs]
    · rw [List.length_append, List.length_singleton]
      rcases codecAccept_cases w' f b with ⟨hf, hfill, _⟩ | ⟨hf, hs, hfill, _⟩ | ⟨s, hf, hs, hfill, _⟩
      · refine ⟨by omega, fun _ => ?_⟩
        rcases h4 (by omega) with h | ⟨s, hle, hs⟩
        · exact .inl (by omega)
        · refine .inr ⟨s, by omega, ?_⟩
          rw [hfill, show pre.length + 1 - (f.val + 1) - 8 = pre.length - f.val - 8 by omega, frameAt,
            memRead_append _ _ _ (by omega)]
          exact hs
      · exact ⟨by omega, fun h => by omega⟩
      · refine ⟨by omega, fun _ => .inr ⟨s, by omega, ?_⟩⟩
        rw [hfill, show pre.length + 1 - 0 - 8 = pre.length - 7 by omega, frameAt, ← hcand (by omega), hs]

end Sys2Proof.Machine
end

