-- ==== Sys2Proof/Laws/Motion.lean ====
section
/-! SUPPORT. The state machine and the port events at the event level: everything `apply`, an accepted byte and RESET
can do (41_motion_fsm.md R143, R149; 40_frame_codec.md R108). -/

namespace Sys2Proof.Machine

theorem target_eq_some {sym : Symbol} {m : Movement} (h : target sym = some m) : sym.code = m.code := by
  cases sym <;> cases h <;> rfl

/-- Everything `apply` can do: re-assert the held state, change to another, or nothing. -/
theorem applySymbol_cases (p : Params) (sym : Symbol) (s : State) :
    (sym = .rep ∧ applySymbol p sym s =
      (callPrimitive p (prim s.mstate) p.cruiseDuty (settle p s)).record (.applied .rep false)) ∨
    (∃ m, target sym = some m ∧ m ≠ s.mstate ∧ applySymbol p sym s =
      ((callPrimitive p (prim m) p.cruiseDuty (settle p s)).setMstate m).record (.applied sym true)) ∨
    (target sym = some s.mstate ∧ applySymbol p sym s = (settle p s).record (.applied sym false)) := by
  unfold applySymbol
  cases h : target sym with
  | none =>
    have : sym = .rep := by cases sym <;> simp_all [target]
    subst this
    exact .inl ⟨rfl, by simp⟩
  | some m =>
    by_cases hm : m = s.mstate
    · exact .inr (.inr ⟨by rw [hm], by simp [hm]⟩)
    · exact .inr (.inl ⟨m, rfl, hm, by simp [hm]⟩)

@[simp] theorem applySymbol_window (p : Params) (sym : Symbol) (s : State) :
    (applySymbol p sym s).window = s.window := by
  rcases applySymbol_cases p sym s with ⟨_, h⟩ | ⟨m, _, _, h⟩ | ⟨_, h⟩ <;> rw [h] <;> simp
@[simp] theorem applySymbol_fill (p : Params) (sym : Symbol) (s : State) :
    (applySymbol p sym s).fill = s.fill := by
  rcases applySymbol_cases p sym s with ⟨_, h⟩ | ⟨m, _, _, h⟩ | ⟨_, h⟩ <;> rw [h] <;> simp
@[simp] theorem applySymbol_fault (p : Params) (sym : Symbol) (s : State) :
    (applySymbol p sym s).fault = s.fault := by
  rcases applySymbol_cases p sym s with ⟨_, h⟩ | ⟨m, _, _, h⟩ | ⟨_, h⟩ <;> rw [h] <;> simp
@[simp] theorem applySymbol_input (p : Params) (sym : Symbol) (s : State) :
    (applySymbol p sym s).input = s.input := by
  rcases applySymbol_cases p sym s with ⟨_, h⟩ | ⟨m, _, _, h⟩ | ⟨_, h⟩ <;> rw [h] <;> simp
@[simp] theorem applySymbol_burstCnt (p : Params) (sym : Symbol) (s : State) :
    (applySymbol p sym s).burstCnt = 0 := by
  rcases applySymbol_cases p sym s with ⟨_, h⟩ | ⟨m, _, _, h⟩ | ⟨_, h⟩ <;> rw [h] <;> simp [callPrimitive_burstCnt]
theorem applySymbol_mstate (p : Params) (sym : Symbol) (s : State) :
    (applySymbol p sym s).mstate = (target sym).getD s.mstate := by
  rcases applySymbol_cases p sym s with ⟨hs, h⟩ | ⟨m, ht, _, h⟩ | ⟨ht, h⟩ <;> rw [h]
  · simp [hs, target]
  · simp [ht]
  · simp [ht]

/-- After a symbol is applied the duties are those of the held state, if they were before (43_top_loop.md R208). -/
theorem applySymbol_dutiesAgree (p : Params) (sym : Symbol) (s : State) (h : s.dutiesAgree p) :
    (applySymbol p sym s).dutiesAgree p := by
  have hs : (settle p s).duty = cruiseDuties p (prim s.mstate) := by
    rw [settle_duty]
    simp only [State.dutiesAgree] at h
    split_ifs at h ⊢ with h0
    · exact h
    · rw [h.1]
  simp only [State.dutiesAgree, applySymbol_burstCnt, if_pos]
  rcases applySymbol_cases p sym s with ⟨_, h⟩ | ⟨m, _, _, h⟩ | ⟨_, h⟩ <;> rw [h] <;> simp [hs, cruiseDuties]

/-- Everything an accepted byte can do. -/
theorem receiveByte_cases (p : Params) (b : Byte) (s : State) :
    ((codecAccept s.window s.fill b).emitted = none ∧ receiveByte p b s =
      (settle p s).setCodec (s.window.shift b) (codecAccept s.window s.fill b).fill) ∨
    (∃ sym, (codecAccept s.window s.fill b).emitted = some sym ∧ receiveByte p b s =
      applySymbol p sym ((settle p s).setCodec (s.window.shift b) 0)) := by
  unfold receiveByte
  cases he : (codecAccept s.window s.fill b).emitted with
  | none => exact .inl ⟨rfl, by simp [he]⟩
  | some sym =>
    refine .inr ⟨sym, rfl, ?_⟩
    have : (codecAccept s.window s.fill b).fill = 0 := by
      rcases codecAccept_cases s.window s.fill b with ⟨_, _, h⟩ | ⟨_, _, _, h⟩ | ⟨_, _, _, h, _⟩
      · rw [h] at he; cases he
      · rw [h] at he; cases he
      · exact Fin.ext h
    simp [he, this]

/-- RESET leaves the reset state, but for what the environment has pending and what was observed, its own writes last. -/
theorem resetBlock_eq (s : State) : resetBlock s =
    { State.reset with input := s.input, trace := s.trace ++ [.writeAll State.reset.duty] } := rfl

end Sys2Proof.Machine
end

