-- ==== Sys2Proof/Laws/Clock.lean ====
section
/-! SUPPORT. One clock cycle, owner by owner: each component's edge changes that component's registers only, so each
register after a cycle is what its own owner's edge makes of the registers before (10_state.md R35, R155, R187). -/

namespace Sys2Proof.Machine

/-! ## The Codec's edge -/

theorem codecEdge_eq (pins : Pins) (s : State) : ∃ w f, codecEdge pins s = s.setCodec w f := by
  unfold codecEdge
  split_ifs
  · exact ⟨s.window, 0, rfl⟩
  · split
    · exact ⟨s.window, s.fill, rfl⟩
    · exact ⟨_, _, rfl⟩

/-! ## The state machine's edge -/

theorem motionEdge_eq (pins : Pins) (old s : State) :
    ∃ m b, motionEdge pins old s = (s.setMstate m).setFault b ∧ (s.fault = true → b = true) := by
  unfold motionEdge
  split
  · exact ⟨s.mstate, s.fault, rfl, id⟩
  · split_ifs
    · split
      · exact ⟨s.mstate, s.fault, rfl, id⟩
      · split_ifs
        · rename_i c _ _
          exact ⟨(movementOfCode? c).getD old.mstate, s.fault, rfl, id⟩
        · exact ⟨s.mstate, s.fault, rfl, id⟩
    · exact ⟨s.mstate, true, rfl, fun _ => rfl⟩

/-! ## The Actuator's edge -/

/-- What one clock of the burst counter shows. -/
def tickObs (p : Params) (s : State) : List Obs :=
  if s.burstCnt = 1 then endBurstObs p s else []

/-- What the Actuator's edge shows in a cycle whose registers are `s`. -/
def edgeObs (p : Params) (pins : Pins) (s : State) : List Obs :=
  if busy s then tickObs p s
  else
    match commandCode pins s with
    | none => []
    | some c =>
      match primitiveOfCode? c with
      | none => []
      | some prim => [.writeAll (burstDuties p prim)]

/-- Everything the Actuator's edge can be. -/
theorem actuatorEdge_cases (p : Params) (pins : Pins) (old s : State) :
    (old.burstCnt ≠ 0 ∧ actuatorEdge p pins old s = tick p s) ∨
    (old.burstCnt = 0 ∧ (∀ prim : Primitive, commandCode pins old ≠ some prim.code) ∧ actuatorEdge p pins old s = s) ∨
    (∃ prim : Primitive, old.burstCnt = 0 ∧ commandCode pins old = some prim.code ∧
      actuatorEdge p pins old s = issue p prim s) := by
  unfold actuatorEdge
  by_cases hb : old.burstCnt = 0
  · have : busy old = false := by simp [busy, hb]
    rw [this]
    cases hc : commandCode pins old with
    | none => exact .inr (.inl ⟨hb, by simp, by simp⟩)
    | some c =>
      cases hp : primitiveOfCode? c with
      | none =>
        refine .inr (.inl ⟨hb, fun prim h => ?_, by simp [hp]⟩)
        rw [Option.some.inj h, primitiveOfCode?_code] at hp
        cases hp
      | some prim =>
        exact .inr (.inr ⟨prim, hb, by rw [primitiveOfCode?_eq_some.1 hp], by simp [hp]⟩)
  · have : busy old = true := by simp [busy, hb]
    exact .inl ⟨hb, by rw [this]; rfl⟩

theorem issue_eq (p : Params) (prim : Primitive) (s : State) : issue p prim s =
    { s with
      duty := burstDuties p prim
      burstCnt := match prim with
        | .stop => s.burstCnt
        | .move _ => p.burstTicks
      burstCmd := match prim with
        | .stop => s.burstCmd
        | .move m => m
      trace := s.trace ++ [.writeAll (burstDuties p prim)] } := by
  cases prim <;> rfl

theorem tick_eq (p : Params) (s : State) : tick p s =
    { s with
      burstCnt := s.burstCnt - 1
      duty := if s.burstCnt = 1 then cruiseDuties p (.move s.burstCmd) else s.duty
      trace := s.trace ++ tickObs p s } := by
  unfold tick tickObs
  by_cases h : s.burstCnt = 0
  · simp only [if_pos h]
    ext <;> simp [h]
  · by_cases h1 : s.burstCnt = 1
    · ext <;> simp [h1, endBurst, endBurstObs]
    · ext <;> simp [h, h1]

/-- The Actuator's edge reads and writes only the Actuator's registers of the state it changes, and shows its writes. -/
theorem actuatorEdge_eq (p : Params) (pins : Pins) (old s : State) (h1 : s.duty = old.duty)
    (h2 : s.burstCnt = old.burstCnt) (h3 : s.burstCmd = old.burstCmd) :
    actuatorEdge p pins old s =
      { s with
        duty := (actuatorEdge p pins old old).duty
        burstCnt := (actuatorEdge p pins old old).burstCnt
        burstCmd := (actuatorEdge p pins old old).burstCmd
        trace := s.trace ++ edgeObs p pins old } := by
  have key : ∀ x : State, actuatorEdge p pins old x =
      if busy old then tick p x
      else
        match commandCode pins old with
        | none => x
        | some c =>
          match primitiveOfCode? c with
          | none => x
          | some prim => issue p prim x := fun _ => rfl
  rw [key s, key old]
  clear key
  unfold edgeObs
  split_ifs
  · simp [tick_eq, tickObs, endBurstObs, h1, h2, h3]
  · generalize commandCode pins old = cmd
    cases cmd with
    | none => ext <;> simp [h1, h2, h3]
    | some c =>
      dsimp only
      generalize primitiveOfCode? c = prim
      rcases prim with _ | (m | _)
      · ext <;> simp [h1, h2, h3]
      · simp [issue_eq]
      · simp [issue_eq, h2, h3]

/-! ## The whole cycle -/

theorem clockCycle_rst (p : Params) (pins : Pins) (s : State) (h : pins.rst = true) :
    clockCycle p pins s = resetBlock (s.record (.cycle (outputs pins s))) := by
  simp [clockCycle, h]

/-- Each register after a cycle without `rst`, from its owner's edge alone. -/
theorem clockCycle_eq (p : Params) (pins : Pins) (s : State) (h : pins.rst = false) :
    clockCycle p pins s =
      { window := (codecEdge pins s).window
        fill := (codecEdge pins s).fill
        mstate := (motionEdge pins s s).mstate
        fault := (motionEdge pins s s).fault
        duty := (actuatorEdge p pins s s).duty
        burstCnt := (actuatorEdge p pins s s).burstCnt
        burstCmd := (actuatorEdge p pins s s).burstCmd
        input := s.input
        trace := s.trace ++ [.cycle (outputs pins s)] ++ edgeObs p pins s } := by
  have hseen : acceptedByte pins (s.record (.cycle (outputs pins s))) = acceptedByte pins s := rfl
  simp only [clockCycle, h, Bool.false_eq_true, if_false]
  rw [actuatorEdge_eq]
  · have hc : codecEdge pins (s.record (.cycle (outputs pins s))) =
        { s with
          window := (codecEdge pins s).window
          fill := (codecEdge pins s).fill
          trace := s.trace ++ [.cycle (outputs pins s)] } := by
      unfold codecEdge
      rw [hseen]
      split_ifs
      · rfl
      · split <;> rfl
    rw [hc]
    unfold motionEdge
    split
    · rfl
    · split_ifs
      · split
        · rfl
        · split_ifs <;> rfl
      · rfl
  all_goals
    obtain ⟨w, f, hw⟩ := codecEdge_eq pins (s.record (.cycle (outputs pins s)))
    obtain ⟨m, b, hm, _⟩ := motionEdge_eq pins s (codecEdge pins (s.record (.cycle (outputs pins s))))
    rw [hm, hw]
    rfl

/-- While a burst runs and no `rst` comes, the Actuator only counts (42_actuator.md R184, R187). -/
theorem clockCycle_busy (p : Params) (pins : Pins) (s : State) (h : pins.rst = false) (hb : s.burstCnt ≠ 0) :
    (clockCycle p pins s).duty = (tick p s).duty ∧ (clockCycle p pins s).burstCnt = (tick p s).burstCnt ∧
      (clockCycle p pins s).burstCmd = s.burstCmd := by
  rw [clockCycle_eq p pins s h]
  rcases actuatorEdge_cases p pins s s with ⟨_, ha⟩ | ⟨h0, _⟩ | ⟨_, h0, _⟩
  · rw [ha, tick_eq]
    exact ⟨rfl, rfl, rfl⟩
  · exact absurd h0 hb
  · exact absurd h0 hb

end Sys2Proof.Machine
end

