-- ==== Sys2Proof/Laws/PerInstr.lean ====
section
/-! SUPPORT. Statements made for every instruction as syntax, one lemma per constructor. -/

namespace Sys2Proof.Laws.EncodedForm

/-- The word of an instruction as spec/opcode_table.json numbers the row's bits, with the bits the table gives it in
whole bytes (30_encoding.md R76, R82, R83, R87). -/
def tableWord : Instr → Nat × Nat
  | .repeatHeld => (64, 0xFF01010102000000)
  | .forward => (64, 0xFF01010102000100)
  | .backward => (64, 0xFF01010102000200)
  | .left => (64, 0xFF01010102000400)
  | .right => (64, 0xFF01010102000800)
  | .stop => (64, 0xFF01010102001000)
  | .pForward => (8, 0x01)
  | .pBackward => (8, 0x02)
  | .pSpinLeft => (8, 0x04)
  | .pSpinRight => (8, 0x08)
  | .pStop => (8, 0x10)
  | .reset => (16, 0x400)
  | .flush => (16, 0x200)
  | .rxbyte b => (16, 0x100 + b.toNat)

/-- The encoder's word has the length of its interface, and it is the table's word. -/
def Statement (i : Instr) : Prop :=
  (encode i).wf = true ∧ rawOfTableWord (tableWord i).1 (tableWord i).2 = some (encode i)

theorem repeatHeld : Statement .repeatHeld := ⟨rfl, rfl⟩
theorem forward : Statement .forward := ⟨rfl, rfl⟩
theorem backward : Statement .backward := ⟨rfl, rfl⟩
theorem left : Statement .left := ⟨rfl, rfl⟩
theorem right : Statement .right := ⟨rfl, rfl⟩
theorem stop : Statement .stop := ⟨rfl, rfl⟩
theorem pForward : Statement .pForward := ⟨rfl, rfl⟩
theorem pBackward : Statement .pBackward := ⟨rfl, rfl⟩
theorem pSpinLeft : Statement .pSpinLeft := ⟨rfl, rfl⟩
theorem pSpinRight : Statement .pSpinRight := ⟨rfl, rfl⟩
theorem pStop : Statement .pStop := ⟨rfl, rfl⟩
theorem reset : Statement .reset := ⟨rfl, rfl⟩
theorem flush : Statement .flush := ⟨rfl, rfl⟩
/-- The vector of an accepted byte, as a number. -/
theorem ofNat_rxEvent (b : Byte) : BitVec.ofNat 11 (0x100 + b.toNat) = rxEvent b := by
  apply BitVec.eq_of_toNat_eq
  have h : b.toNat < 2 ^ 8 := b.isLt
  have hor : 2 ^ 8 * 1 + b.toNat = 2 ^ 8 * 1 ||| b.toNat := Nat.two_pow_add_eq_or_of_lt h 1
  simp only [rxEvent, BitVec.toNat_or, BitVec.toNat_setWidth, BitVec.toNat_ofNat]
  rw [Nat.mod_eq_of_lt (by omega), Nat.mod_eq_of_lt (a := b.toNat) (by omega)]
  exact hor

theorem rxbyte (b : Byte) : Statement (.rxbyte b) := by
  refine ⟨rfl, ?_⟩
  have h : b.toNat < 2 ^ 8 := b.isLt
  show rawOfTableWord 16 (0x100 + b.toNat) = some (.port (rxEvent b))
  rw [rawOfTableWord, if_neg (by decide), if_neg (by decide), if_pos (by decide), if_pos (by omega), ofNat_rxEvent]

end Sys2Proof.Laws.EncodedForm
end

