-- ==== Sys2Proof/Laws/Step.lean ====
section
/-! SUPPORT. The dispatch and the step: what each class of instruction and of input answers. -/

namespace Sys2Proof.Machine

theorem exec_ofSymbol (sym : Symbol) (s : State) :
    exec (Instr.ofSymbol sym) s = .next (applySymbol Config.params sym s) := by
  cases sym <;> rfl

theorem exec_ofPrimitive (prim : Primitive) (s : State) :
    exec (Instr.ofPrimitive prim) s = .next (actuate Config.params prim Config.params.cruiseDuty s) := by
  rcases prim with m | _
  · cases m <;> rfl
  · rfl

theorem exec_reset (s : State) : exec .reset s = .next (resetBlock s) := rfl
theorem exec_flush (s : State) : exec .flush s = .next (flushCodec s) := rfl
theorem exec_rxbyte (b : Byte) (s : State) : exec (.rxbyte b) s = .next (receiveByte Config.params b s) := rfl

/-- Every instruction is a frame command, an Actuator command or a port event. -/
theorem instr_cases (i : Instr) :
    (∃ sym, i = Instr.ofSymbol sym) ∨ (∃ prim, i = Instr.ofPrimitive prim) ∨ i = .reset ∨ i = .flush ∨
      ∃ b, i = .rxbyte b := by
  cases i
  · exact .inl ⟨.rep, rfl⟩
  · exact .inl ⟨.forward, rfl⟩
  · exact .inl ⟨.backward, rfl⟩
  · exact .inl ⟨.left, rfl⟩
  · exact .inl ⟨.right, rfl⟩
  · exact .inl ⟨.stop, rfl⟩
  · exact .inr (.inl ⟨.move .forward, rfl⟩)
  · exact .inr (.inl ⟨.move .backward, rfl⟩)
  · exact .inr (.inl ⟨.move .spinLeft, rfl⟩)
  · exact .inr (.inl ⟨.move .spinRight, rfl⟩)
  · exact .inr (.inl ⟨.stop, rfl⟩)
  · exact .inr (.inr (.inl rfl))
  · exact .inr (.inr (.inr (.inl rfl)))
  · exact .inr (.inr (.inr (.inr ⟨_, rfl⟩)))

/-- POLL applies the symbols of its snapshot one after another (43_top_loop.md R200). -/
theorem runCommands_eq (syms : List Symbol) (s : State) :
    runCommands syms s = .next (syms.foldl (fun s sym => applySymbol Config.params sym s) s) := by
  induction syms generalizing s with
  | nil => rfl
  | cons sym syms ih => simp only [runCommands, exec_ofSymbol, ih, List.foldl_cons]

theorem step_nil (s : State) (h : s.input = []) : step s = .next (tick Config.params s) := by
  simp [step, stepInput, h]

theorem step_cons (s : State) (i : Input) (rest : List Input) (h : s.input = i :: rest) :
    step s = takeInput i (s.setInput rest) := by
  simp [step, stepInput, h]

/-- The port event of a vector, by its three control bits (30_encoding.md R87). -/
theorem decodePort_cases (e : EventVector) :
    decodePort e = .ok .reset ∨ decodePort e = .ok .flush ∨ decodePort e = .ok (.rxbyte (e.extractLsb' 0 8)) ∨
      decodePort e = .error .noEvent := by
  unfold decodePort
  split_ifs <;> simp

/-- Everything the taking of one input can be. -/
theorem takeInput_cases (i : Input) (s : State) :
    takeInput i s = .next s ∨
    (∃ instr, takeInput i s = exec instr s) ∨
    (∃ syms, takeInput i s = runCommands syms s) ∨
    (∃ c, i = .symbol c ∧ symbolOfCode? c = none ∧ takeInput i s = .next (raiseUnknownSymbol c s)) ∨
    (∃ c, i = .channel c ∧ takeInput i s = .next (channelCall Config.params c s)) ∨
    (∃ p d, i = .composed p d ∧ takeInput i s = .next (actuate Config.params p d s)) ∨
    (∃ pins, i = .clock pins ∧ takeInput i s = .next (clockCycle Config.params pins s)) := by
  cases i with
  | port e =>
    cases h : decodeInstr (.port e) with
    | ok instr => exact .inr (.inl ⟨instr, by simp [takeInput, h]⟩)
    | error r => exact .inl (by simp [takeInput, h])
  | snapshot buf => exact .inr (.inr (.inl ⟨decodeBuffer buf, rfl⟩))
  | actuator c =>
    cases h : decodeInstr (.act c) with
    | ok instr => exact .inr (.inl ⟨instr, by simp [takeInput, h]⟩)
    | error r => exact .inl (by simp [takeInput, h])
  | symbol c =>
    cases h : symbolOfCode? c with
    | some sym => exact .inr (.inl ⟨Instr.ofSymbol sym, by simp [takeInput, h]⟩)
    | none => exact .inr (.inr (.inr (.inl ⟨c, rfl, h, by simp [takeInput, h]⟩)))
  | channel c => exact .inr (.inr (.inr (.inr (.inl ⟨c, rfl, rfl⟩))))
  | composed p d => exact .inr (.inr (.inr (.inr (.inr (.inl ⟨p, d, rfl, rfl⟩)))))
  | clock pins => exact .inr (.inr (.inr (.inr (.inr (.inr ⟨pins, rfl, rfl⟩)))))

end Sys2Proof.Machine
end

