-- ==== Sys2Proof/Laws/Trace.lean ====
section
/-! SUPPORT. Reading a trace, and comparing runs: the Actuator calls and the returned values of a concatenation and of
one call (43_top_loop.md R206), clock runs cut at the end, and the registers two states share. -/

namespace Sys2Proof.Machine

/-! ## Observations -/

@[simp] theorem calls_nil : calls [] = [] := rfl
@[simp] theorem returned_nil : returned [] = [] := rfl
@[simp] theorem calls_append (a b : List Obs) : calls (a ++ b) = calls a ++ calls b := by
  simp [calls]
@[simp] theorem returned_append (a b : List Obs) : returned (a ++ b) = returned a ++ returned b := by
  simp [returned]
@[simp] theorem calls_call (q : Primitive) (l : List Obs) : calls (.call q :: l) = q :: calls l := rfl
@[simp] theorem returned_call (q : Primitive) (l : List Obs) : returned (.call q :: l) = returned l := rfl
@[simp] theorem calls_wait (d : Nat) (l : List Obs) : calls (.wait d :: l) = calls l := rfl
@[simp] theorem returned_wait (d : Nat) (l : List Obs) : returned (.wait d :: l) = returned l := rfl
@[simp] theorem calls_applied (y : Symbol) (c : Bool) (l : List Obs) : calls (.applied y c :: l) = calls l := rfl
@[simp] theorem returned_applied (y : Symbol) (c : Bool) (l : List Obs) :
    returned (.applied y c :: l) = (y, c) :: returned l := rfl
@[simp] theorem calls_writeAll (d : Duties) (l : List Obs) : calls (.writeAll d :: l) = calls l := rfl
@[simp] theorem returned_writeAll (d : Duties) (l : List Obs) : returned (.writeAll d :: l) = returned l := rfl
@[simp] theorem calls_writes (ws : List PinWrite) : calls (ws.map writeObs) = [] := by
  induction ws <;> simp_all [calls, writeObs]
@[simp] theorem returned_writes (ws : List PinWrite) : returned (ws.map writeObs) = [] := by
  induction ws <;> simp_all [returned, writeObs]

/-- One composed primitive is one call. -/
@[simp] theorem calls_callObs (p : Params) (q : Primitive) (d : Int) : calls (callObs p q d) = [q] := by
  cases q <;> simp [callObs]
/-- One composed primitive returns no value of `apply`. -/
@[simp] theorem returned_callObs (p : Params) (q : Primitive) (d : Int) : returned (callObs p q d) = [] := by
  cases q <;> simp [callObs]

/-- The end of a burst is no call. -/
@[simp] theorem calls_endBurstObs (p : Params) (s : State) : calls (endBurstObs p s) = [] := rfl
@[simp] theorem returned_endBurstObs (p : Params) (s : State) : returned (endBurstObs p s) = [] := rfl

@[simp] theorem calls_settleObs (p : Params) (s : State) : calls (settleObs p s) = [] := by
  unfold settleObs; split_ifs <;> rfl
@[simp] theorem returned_settleObs (p : Params) (s : State) : returned (settleObs p s) = [] := by
  unfold settleObs; split_ifs <;> rfl

/-! ## Duty writes shown -/

@[simp] theorem dutiesAfter_nil (d : Duties) : dutiesAfter [] d = d := rfl
@[simp] theorem dutiesAfter_append (a b : List Obs) (d : Duties) :
    dutiesAfter (a ++ b) d = dutiesAfter b (dutiesAfter a d) := by
  simp [dutiesAfter]
@[simp] theorem dutiesAfter_writeAll (d' : Duties) (l : List Obs) (d : Duties) :
    dutiesAfter (.writeAll d' :: l) d = dutiesAfter l d' := rfl
@[simp] theorem dutiesAfter_call (q : Primitive) (l : List Obs) (d : Duties) :
    dutiesAfter (.call q :: l) d = dutiesAfter l d := rfl
@[simp] theorem dutiesAfter_wait (n : Nat) (l : List Obs) (d : Duties) :
    dutiesAfter (.wait n :: l) d = dutiesAfter l d := rfl
@[simp] theorem dutiesAfter_applied (y : Symbol) (c : Bool) (l : List Obs) (d : Duties) :
    dutiesAfter (.applied y c :: l) d = dutiesAfter l d := rfl
@[simp] theorem dutiesAfter_assert (c : Code) (l : List Obs) (d : Duties) :
    dutiesAfter (.assertUnknownSymbol c :: l) d = dutiesAfter l d := rfl
@[simp] theorem dutiesAfter_cycle (o : Outputs) (l : List Obs) (d : Duties) :
    dutiesAfter (.cycle o :: l) d = dutiesAfter l d := rfl
@[simp] theorem dutiesAfter_writes (ws : List PinWrite) (d : Duties) :
    dutiesAfter (ws.map writeObs) d = ws.foldl (fun d w => d.set w.1 w.2) d := by
  induction ws generalizing d with
  | nil => rfl
  | cons w ws ih => exact ih _

/-- The writes one composed primitive shows leave its duties, whatever the duties were. -/
@[simp] theorem dutiesAfter_callObs (p : Params) (q : Primitive) (d : Int) (d0 : Duties) :
    dutiesAfter (callObs p q d) d0 = dutyRow p.spinMode (clamp p d) q := by
  rcases q with m | _
  · obtain ⟨h1, h2⟩ := phases_duty p m d d0
    simp [callObs, h1, h2]
  · simp [callObs, stopWrites_duty, dutyRow]

/-- What the rest of a burst shows takes the duties to those it leaves. -/
@[simp] theorem dutiesAfter_settleObs (p : Params) (s : State) :
    dutiesAfter (settleObs p s) s.duty = (settle p s).duty := by
  rw [settle_duty]
  unfold settleObs endBurstObs
  split_ifs <;> simp

@[simp] theorem shownWrites_nil : shownWrites [] = [] := rfl
@[simp] theorem shownWrites_append (a b : List Obs) : shownWrites (a ++ b) = shownWrites a ++ shownWrites b := by
  simp [shownWrites]
@[simp] theorem shownWrites_call (q : Primitive) (l : List Obs) : shownWrites (.call q :: l) = shownWrites l := rfl
@[simp] theorem shownWrites_write (pin : Pin) (v : Nat) (l : List Obs) :
    shownWrites (.write pin v :: l) = .write pin v :: shownWrites l := rfl
@[simp] theorem shownWrites_writeAll (d : Duties) (l : List Obs) :
    shownWrites (.writeAll d :: l) = .writeAll d :: shownWrites l := rfl
@[simp] theorem shownWrites_wait (n : Nat) (l : List Obs) :
    shownWrites (.wait n :: l) = .wait n :: shownWrites l := rfl
@[simp] theorem shownWrites_applied (y : Symbol) (c : Bool) (l : List Obs) :
    shownWrites (.applied y c :: l) = shownWrites l := rfl

/-! ## An accepted byte -/

@[simp] theorem receiveByte_window (p : Params) (b : Byte) (s : State) :
    (receiveByte p b s).window = s.window.shift b := by
  rcases receiveByte_cases p b s with ⟨_, h⟩ | ⟨_, _, h⟩ <;> rw [h] <;> simp
theorem receiveByte_fill (p : Params) (b : Byte) (s : State) :
    (receiveByte p b s).fill = (codecAccept s.window s.fill b).fill := by
  rcases receiveByte_cases p b s with ⟨_, h⟩ | ⟨_, he, h⟩ <;> rw [h] <;> simp
  rcases codecAccept_cases s.window s.fill b with ⟨_, _, h⟩ | ⟨_, _, _, h⟩ | ⟨_, _, _, h, _⟩
  · rw [h] at he; cases he
  · rw [h] at he; cases he
  · exact (Fin.ext h).symm
@[simp] theorem receiveByte_fault (p : Params) (b : Byte) (s : State) : (receiveByte p b s).fault = s.fault := by
  rcases receiveByte_cases p b s with ⟨_, h⟩ | ⟨_, _, h⟩ <;> rw [h] <;> simp
@[simp] theorem receiveByte_input (p : Params) (b : Byte) (s : State) : (receiveByte p b s).input = s.input := by
  rcases receiveByte_cases p b s with ⟨_, h⟩ | ⟨_, _, h⟩ <;> rw [h] <;> simp

/-! ## Clock runs and shared registers -/

@[simp] theorem clockRun_nil (p : Params) (s : State) : clockRun p [] s = s := rfl
theorem clockRun_cons (p : Params) (q : Pins) (l : List Pins) (s : State) :
    clockRun p (q :: l) s = clockRun p l (clockCycle p q s) := rfl
theorem clockRun_snoc (p : Params) (l : List Pins) (q : Pins) (s : State) :
    clockRun p (l ++ [q]) s = clockCycle p q (clockRun p l s) := by
  simp [clockRun]

theorem sameRegisters_refl (s : State) : sameRegisters s s := ⟨rfl, rfl, rfl, rfl, rfl, rfl, rfl⟩
theorem sameRegisters_trans {a b c : State} (h : sameRegisters a b) (g : sameRegisters b c) : sameRegisters a c := by
  obtain ⟨h1, h2, h3, h4, h5, h6, h7⟩ := h
  obtain ⟨g1, g2, g3, g4, g5, g6, g7⟩ := g
  exact ⟨h1.trans g1, h2.trans g2, h3.trans g3, h4.trans g4, h5.trans g5, h6.trans g6, h7.trans g7⟩

end Sys2Proof.Machine
end

