-- ==== Sys2Proof/Tests/Slice0.lean ====
section
/-! SUPPORT. The model's own tests: the table's words decoded, ill-formed terms refused, the vectors of
95_test_vectors.md by their names, and for each statement with hypotheses a witness that meets them. The numbers 100,
60 and 3 are the spec's illustrative `MAX_DUTY`, `CRUISE_DUTY` and `BURST_TICKS`. -/

open Sys2Proof Sys2Proof.Machine Sys2Proof.Claims

namespace Sys2Proof.Tests

/-! ## Decoding: the words of 30_encoding.md R83, R82, R87, bit by bit -/

theorem test_decode_repeat : decodeTableWord 64
    0b1111111100000001000000010000000100000010000000000000000000000000 = some .repeatHeld := by decide
theorem test_decode_forward : decodeTableWord 64
    0b1111111100000001000000010000000100000010000000000000000100000000 = some .forward := by decide
theorem test_decode_backward : decodeTableWord 64
    0b1111111100000001000000010000000100000010000000000000001000000000 = some .backward := by decide
theorem test_decode_left : decodeTableWord 64
    0b1111111100000001000000010000000100000010000000000000010000000000 = some .left := by decide
theorem test_decode_right : decodeTableWord 64
    0b1111111100000001000000010000000100000010000000000000100000000000 = some .right := by decide
theorem test_decode_stop : decodeTableWord 64
    0b1111111100000001000000010000000100000010000000000001000000000000 = some .stop := by decide
theorem test_decode_p_forward : decodeTableWord 8 0b00001 = some .pForward := by decide
theorem test_decode_p_backward : decodeTableWord 8 0b00010 = some .pBackward := by decide
theorem test_decode_p_spin_left : decodeTableWord 8 0b00100 = some .pSpinLeft := by decide
theorem test_decode_p_spin_right : decodeTableWord 8 0b01000 = some .pSpinRight := by decide
theorem test_decode_p_stop : decodeTableWord 8 0b10000 = some .pStop := by decide
theorem test_decode_reset : decodeTableWord 16 0b10000000000 = some .reset ∧
    decodeTableWord 16 0b11111111111 = some .reset := by decide
theorem test_decode_flush : decodeTableWord 16 0b01000000000 = some .flush ∧
    decodeTableWord 16 0b01111111111 = some .flush := by decide
theorem test_decode_rxbyte : decodeTableWord 16 0b00110000001 = some (.rxbyte 0x81#8) := by decide

/-- Words of no row (30_encoding.md R77, R82, R87), each with the name of its rejection. -/
theorem test_decode_rejects_by_name :
    decodeInstr (.frame [0xFF#8, 0x01#8, 0x01#8, 0x01#8, 0x02#8, 0x00#8, 0x01#8]) = .error .frameLength ∧
    decodeInstr (.frame [0xFE#8, 0x01#8, 0x01#8, 0x01#8, 0x02#8, 0x00#8, 0x01#8, 0x00#8]) = .error .header ∧
    decodeInstr (.frame [0xFF#8, 0x01#8, 0x01#8, 0x01#8, 0x02#8, 0x00#8, 0x01#8, 0x01#8]) = .error .tail ∧
    decodeInstr (.frame [0xFF#8, 0x01#8, 0x01#8, 0x01#8, 0x02#8, 0x00#8, 0x03#8, 0x00#8]) = .error .unknownCode ∧
    decodeInstr (.act 0b00011#5) = .error .notActuatorCommand ∧
    decodeInstr (.port 0b00010000001#11) = .error .noEvent := ⟨rfl, rfl, rfl, rfl, rfl, rfl⟩

/-! ## A word placed after reset runs -/

theorem test_first_step_frame :
    step (State.reset.withFetchWord 64 0xFF01010102000000) = exec .repeatHeld State.reset ∧
    step (State.reset.withFetchWord 64 0xFF01010102000100) = exec .forward State.reset ∧
    step (State.reset.withFetchWord 64 0xFF01010102000200) = exec .backward State.reset ∧
    step (State.reset.withFetchWord 64 0xFF01010102000400) = exec .left State.reset ∧
    step (State.reset.withFetchWord 64 0xFF01010102000800) = exec .right State.reset ∧
    step (State.reset.withFetchWord 64 0xFF01010102001000) = exec .stop State.reset :=
  ⟨rfl, rfl, rfl, rfl, rfl, rfl⟩

theorem test_first_step_act :
    step (State.reset.withFetchWord 8 0x01) = exec .pForward State.reset ∧
    step (State.reset.withFetchWord 8 0x02) = exec .pBackward State.reset ∧
    step (State.reset.withFetchWord 8 0x04) = exec .pSpinLeft State.reset ∧
    step (State.reset.withFetchWord 8 0x08) = exec .pSpinRight State.reset ∧
    step (State.reset.withFetchWord 8 0x10) = exec .pStop State.reset := ⟨rfl, rfl, rfl, rfl, rfl⟩

theorem test_first_step_port :
    step (State.reset.withFetchWord 16 0x400) = exec .reset State.reset ∧
    step (State.reset.withFetchWord 16 0x200) = exec .flush State.reset ∧
    step (State.reset.withFetchWord 16 0x1FF) = exec (.rxbyte 0xFF#8) State.reset := ⟨rfl, rfl, rfl⟩

/-! ## Ill-formed terms are refused -/

/-- A frame of 7 and of 9 bytes (V10d, V10e). -/
theorem test_wf_frame_length :
    Raw.wf (.frame [0xFF#8, 0x01#8, 0x01#8, 0x01#8, 0x02#8, 0x00#8, 0x01#8]) = false ∧
    Raw.wf (.frame [0xFF#8, 0x01#8, 0x01#8, 0x01#8, 0x02#8, 0x00#8, 0x01#8, 0x00#8, 0x00#8]) = false ∧
    Raw.wf (.frame [0xFF#8, 0x01#8, 0x01#8, 0x01#8, 0x02#8, 0x00#8, 0x01#8, 0x00#8]) = true := by decide
/-- The parameters' three constraints (00_scope.md R9), each broken alone, and none. -/
theorem test_wf_params :
    Params.wf ⟨0, 60, 1, 3, .pivot⟩ = false ∧ Params.wf ⟨100, 60, 0, 3, .pivot⟩ = false ∧
    Params.wf ⟨100, 60, 1, 0, .pivot⟩ = false ∧ Params.wf ⟨1, -3, 1, 1, .pivot⟩ = true := by decide

/-! ## The Codec: vectors V, T -/

/-- The six bytes before the direction code. -/
def hd : List Byte := [0xFF#8, 0x01#8, 0x01#8, 0x01#8, 0x02#8, 0x00#8]

theorem test_V1_V6_map : frameSymbol? (hd ++ [0x00#8, 0x00#8]) = some .rep ∧
    frameSymbol? (hd ++ [0x01#8, 0x00#8]) = some .forward ∧ frameSymbol? (hd ++ [0x02#8, 0x00#8]) = some .backward ∧
    frameSymbol? (hd ++ [0x04#8, 0x00#8]) = some .left ∧ frameSymbol? (hd ++ [0x08#8, 0x00#8]) = some .right ∧
    frameSymbol? (hd ++ [0x10#8, 0x00#8]) = some .stop := by decide
theorem test_V7_V10_invalid : validFrame (hd ++ [0x03#8, 0x00#8]) = false ∧ validFrame (hd ++ [0x18#8, 0x00#8]) = false ∧
    validFrame (hd ++ [0x20#8, 0x00#8]) = false ∧ validFrame (hd ++ [0xFF#8, 0x00#8]) = false ∧
    validFrame (hd ++ [0x01#8, 0x01#8]) = false ∧ validFrame (hd ++ [0x01#8]) = false ∧
    validFrame (hd ++ [0x01#8, 0x00#8, 0x00#8]) = false := by decide
theorem test_V11c_only_leads : decodeBuffer (List.replicate 9 0xFF#8) = [] := by decide
theorem test_V12_no_deduplication :
    decodeBuffer (hd ++ [0x04#8, 0x00#8] ++ hd ++ [0x04#8, 0x00#8]) = [.left, .left] := by decide
theorem test_V13_extra_lead : decodeBuffer ([0xFF#8] ++ hd ++ [0x08#8, 0x00#8]) = [.right] := by decide
theorem test_V14_frame_inside_a_candidate : decodeBuffer (hd ++ hd ++ [0x08#8, 0x00#8]) = [.right] := by decide
theorem test_V16_noise_and_partial :
    decodeBuffer ([0x00#8, 0x10#8, 0x20#8] ++ hd ++ [0x02#8, 0x00#8, 0xFF#8, 0x01#8, 0x01#8, 0x01#8, 0x02#8])
      = [.backward] := by decide
theorem test_V21_bad_tail : decodeBuffer (hd ++ [0x01#8, 0xFF#8] ++ hd ++ [0x10#8, 0x00#8]) = [.stop] := by decide
theorem test_T2_header_restarted :
    ((codecFeed State.reset.window 0 (hd ++ hd ++ [0x10#8, 0x00#8])).1,
      (codecFeed State.reset.window 0 (hd ++ hd ++ [0x10#8, 0x00#8])).2.2) = ([.stop], 0) ∧
    (codecFeed State.reset.window 0 (hd ++ hd ++ [0x10#8])).2.2 = 8 := by decide
theorem test_T6_stale_window :
    codecAccept ⟨0xAA#8, 0xFF#8, 0x01#8, 0x01#8, 0x01#8, 0x02#8, 0x00#8, 0x01#8⟩ 0 0x00#8 =
      ⟨⟨0xFF#8, 0x01#8, 0x01#8, 0x01#8, 0x02#8, 0x00#8, 0x01#8, 0x00#8⟩, 1, none⟩ := by decide

/-! ## The Actuator and the state machine: vectors A, M -/

/-- The illustrative parameters of the vectors. -/
def par (mode : SpinMode) : Params := ⟨100, 60, 1, 3, mode⟩

/-- A state with no burst in progress that holds `m` with duties `d`. -/
def held (m : Movement) (d : Duties) : State :=
  { State.reset with mstate := m, duty := d }

/-- The duties after a primitive and the number of its register writes. -/
def after (s : State) : Duties × Nat :=
  (s.duty, s.trace.countP fun
    | .write _ _ => true
    | .writeAll _ => false
    | .call _ => false
    | .wait _ => false
    | .applied _ _ => false
    | .assertUnknownSymbol _ => false
    | .cycle _ => false)

theorem test_A1_A2_A4_channels :
    channelWrites (par .pivot) (.forward .a (-5)) = [(.ab, 0), (.af, 0)] ∧
    channelWrites (par .pivot) (.backward .b 1100) = [(.bf, 0), (.bb, 100)] ∧
    (runWrites (channelWrites (par .pivot) (.forward .a 100)) (held .backward ⟨0, 60, 0, 60⟩)).duty =
      ⟨100, 0, 0, 60⟩ := by decide
theorem test_A3_clamp : clamp (par .pivot) 0 = 0 ∧ clamp (par .pivot) 100 = 100 ∧ clamp (par .pivot) (-1) = 0 ∧
    clamp (par .pivot) 101 = 100 ∧ clamp (par .pivot) 60 = 60 := by decide
theorem test_A5_forward : callObs (par .counterRotate) (.move .forward) 60 =
    [.call (.move .forward), .write .ab 0, .write .af 100, .write .bb 0, .write .bf 100, .wait 1, .write .ab 0,
      .write .af 60, .write .bb 0, .write .bf 60] := by decide
theorem test_A6_backward :
    after (callPrimitive (par .counterRotate) (.move .backward) 60 (held .forward ⟨60, 0, 60, 0⟩)) =
      (⟨0, 60, 0, 60⟩, 8) := by decide
theorem test_A7_spin_left :
    after (callPrimitive (par .counterRotate) (.move .spinLeft) 60 (held .forward ⟨60, 0, 60, 0⟩)) =
      (⟨0, 60, 60, 0⟩, 8) := by decide
theorem test_A8_spin_left_pivot :
    after (callPrimitive (par .pivot) (.move .spinLeft) 60 (held .forward ⟨60, 0, 60, 0⟩)) =
      (⟨0, 0, 60, 0⟩, 6) := by decide
theorem test_A9_spin_right :
    after (callPrimitive (par .counterRotate) (.move .spinRight) 60 (held .left ⟨0, 60, 60, 0⟩)) =
      (⟨60, 0, 0, 60⟩, 8) := by decide
theorem test_A10_spin_right_pivot :
    after (callPrimitive (par .pivot) (.move .spinRight) 60 (held .left ⟨0, 60, 60, 0⟩)) =
      (⟨60, 0, 0, 0⟩, 6) := by decide
theorem test_A11_stop : after (callPrimitive (par .pivot) .stop 60 (held .right ⟨60, 0, 0, 60⟩)) =
    (⟨0, 0, 0, 0⟩, 4) := by decide
theorem test_A12_A13_cruise_corners :
    (callPrimitive (par .pivot) (.move .forward) 250 State.reset).duty = ⟨100, 0, 100, 0⟩ ∧
    (callPrimitive (par .pivot) (.move .forward) (-3) State.reset).duty = ⟨0, 0, 0, 0⟩ := by
  rw [callPrimitive_duty, callPrimitive_duty, show clamp (par .pivot) 250 = 100 by decide]
  decide

/-- What one `apply` shows: the state after, the calls, the value returned. -/
def applied (m : Movement) (y : Symbol) : Movement × List Primitive × List (Symbol × Bool) :=
  let t := applySymbol (par .counterRotate) y (held m ⟨0, 0, 0, 0⟩)
  (t.mstate, calls t.trace, returned t.trace)

theorem test_M1_forward : applied .stop .forward = (.forward, [.move .forward], [(.forward, true)]) ∧
    applied .forward .forward = (.forward, [], [(.forward, false)]) := by decide
theorem test_M2_stop : applied .stop .stop = (.stop, [], [(.stop, false)]) ∧
    applied .right .stop = (.stop, [.stop], [(.stop, true)]) := by decide
theorem test_M3_M6_repeat : applied .stop .rep = (.stop, [.stop], [(.rep, false)]) ∧
    applied .backward .rep = (.backward, [.move .backward], [(.rep, false)]) := by decide
theorem test_M4_backward : applied .forward .backward = (.backward, [.move .backward], [(.backward, true)]) := by decide
theorem test_M5_right_left : applied .left .right = (.right, [.move .spinRight], [(.right, true)]) ∧
    applied .right .left = (.left, [.move .spinLeft], [(.left, true)]) := by decide
theorem test_M10_unknown_symbol :
    step { held .left ⟨0, 0, 0, 0⟩ with input := [.symbol 0b00011#5] } =
      .next { held .left ⟨0, 0, 0, 0⟩ with fault := true, trace := [.assertUnknownSymbol 0b00011#5] } := rfl

/-! ## The cycle level: the trace of 2.6, and X1 to X6 -/

/-- The byte interface offering a byte. -/
def offer (b : Byte) : Pins := ⟨false, .codec true b false⟩

/-- The state of cycle 8 of the trace: seven bytes of `frame(Forward)` accepted. -/
def cycle8 : State :=
  { State.reset with window := ⟨0x00#8, 0xFF#8, 0x01#8, 0x01#8, 0x01#8, 0x02#8, 0x00#8, 0x01#8⟩, fill := 7 }

/-- The state of cycle 11: the last cycle of the burst. -/
def cycle11 : State :=
  { held .forward ⟨100, 0, 100, 0⟩ with burstCnt := 1 }

theorem test_cycle8_outputs : outputs (offer 0x00#8) cycle8 =
    ⟨true, some 0b00001#5, true, some 0b00001#5, 0b10000#5, false, false, ⟨0, 0, 0, 0⟩⟩ := by decide
theorem test_cycle8_to_9 :
    let t := clockCycle (par .counterRotate) (offer 0x00#8) cycle8
    (outputs (offer 0xFF#8) t, t.fill, t.burstCnt) =
      (⟨false, none, false, none, 0b00001#5, false, true, ⟨100, 0, 100, 0⟩⟩, 0, 3) := by decide
theorem test_cycle11_to_12 :
    let t := clockCycle (par .counterRotate) (offer 0xFF#8) cycle11
    (outputs (offer 0xFF#8) t, t.fill, t.burstCnt) =
      (⟨true, none, false, none, 0b00001#5, false, false, ⟨60, 0, 60, 0⟩⟩, 0, 0) := by decide

theorem test_X1_X2_X3_reset :
    exec .reset { held .left ⟨0, 100, 100, 0⟩ with fill := 5, fault := true, burstCnt := 2, burstCmd := .spinLeft } =
      .next { State.reset with trace := [.writeAll ⟨0, 0, 0, 0⟩] } := rfl
theorem test_X4_flush : exec .flush { held .right ⟨60, 0, 0, 60⟩ with fill := 6 } =
    .next (held .right ⟨60, 0, 0, 60⟩) := rfl
theorem test_X5_reset_beats_all :
    clockCycle (par .pivot) ⟨true, .codec true 0xFF#8 true⟩ cycle8 =
      { State.reset with trace := [.cycle (outputs ⟨true, .codec true 0xFF#8 true⟩ cycle8), .writeAll ⟨0, 0, 0, 0⟩] } := by decide
theorem test_X6_flush_beats_byte :
    let t := clockCycle (par .pivot) ⟨false, .codec true 0x00#8 true⟩ cycle8
    (t.fill, t.window == cycle8.window, t.mstate, rxReady ⟨false, .codec true 0x00#8 true⟩ cycle8) =
      (0, true, .stop, false) := by decide

/-! ## Witnesses: a state and operands that meet the hypotheses of each statement, at the ends of their ranges -/

theorem witness_DecodeEncodeAgree : Instr.wf (.rxbyte 0xFF#8) = true ∧
    decodeInstr (.frame (hd ++ [0x10#8, 0x00#8])) = .ok .stop ∧ decodeInstr (.act 0b01000#5) = .ok .pSpinRight :=
  ⟨rfl, rfl, rfl⟩
theorem witness_ValidFramesAreExactlySix : validFrame (hd ++ [0x11#8, 0x00#8]) = false ∧
    frameOf .stop = frameOf .stop := by decide
theorem witness_CodecTestableProperties : (∀ x ∈ [0xFE#8, 0x00#8], x ≠ 0xFF#8) ∧
    (0 ≤ 5 ∧ (frameOf .rep)[0]? ≠ some 0xFE#8) ∧ (5 ≤ 5 ∧ (frameOf .rep)[5]? ≠ some 0xFF#8) ∧
    (frameOf .stop)[7]? ≠ some 0xFF#8 := by decide
theorem witness_SnapshotsLoseOnlyStraddlingFrames :
    (3 < (hd.take 4).length ∨ 0 < (hd.take 4).length) ∧ (hd.take 4).length < 0 + 8 ∧
    validFrame (((hd.take 4 ++ (hd.drop 4 ++ [0x01#8, 0x00#8])).drop 0).take 8) = true ∧
    (decodeBuffer (hd.take 4) ++ decodeBuffer (hd.drop 4 ++ [0x01#8, 0x00#8])).length <
      (decodeBuffer (hd.take 4 ++ (hd.drop 4 ++ [0x01#8, 0x00#8]))).length := by decide
theorem witness_StreamingEqualsDecode :
    (codecAccept (codecFeed State.reset.window 0 (hd ++ [0x10#8])).2.1
      (codecFeed State.reset.window 0 (hd ++ [0x10#8])).2.2 0x00#8).emitted = some .stop := by decide
theorem witness_SymbolsAreEightBytesApart : (hd ++ [0x10#8]).length < 8 ∧
    (codecAccept cycle8.window 7 0x00#8).emitted = some .forward ∧
    (codecAccept cycle8.window 8 0x00#8).emitted = some .forward ∧ (∀ x ∈ [0xFE#8], x ≠ LEAD) := by decide
theorem witness_RxbyteResult : cycle8.burstCnt = 0 ∧ 7 ≤ cycle8.fill.val ∧
    [cycle8.window.w1, cycle8.window.w2, cycle8.window.w3, cycle8.window.w4, cycle8.window.w5, cycle8.window.w6,
      cycle8.window.w7, 0x00#8] = frameOf .forward ∧ State.reset.fill.val < 7 ∧
    (∀ sym : Symbol, [cycle8.window.w1, cycle8.window.w2, cycle8.window.w3, cycle8.window.w4, cycle8.window.w5,
      cycle8.window.w6, cycle8.window.w7, 0x01#8] ≠ frameOf sym) := by
  refine ⟨rfl, by decide, by decide, by decide, fun sym => ?_⟩
  cases sym <;> decide
theorem witness_FlushResult : exec .flush cycle8 = .next { cycle8 with fill := 0 } := rfl
theorem witness_ResetResult : [Drive.symIn true 0b00011#5, .codec true 0xFF#8 true] ≠ [] := by decide
theorem witness_MoveCommands : State.reset.burstCnt = 0 ∧ State.reset.mstate ≠ .forward ∧
    State.reset.mstate = .stop := by decide
theorem witness_MealyMachine :
    (∃ t new, exec .stop (held .left ⟨0, 0, 0, 0⟩) = .next t ∧ t.trace = [] ++ new ∧ t.mstate ≠ .left) ∧
    (∃ t new, exec .repeatHeld State.reset = .next t ∧ t.trace = [] ++ new ∧ calls new ≠ [] ∧
      t.mstate = State.reset.mstate) :=
  ⟨⟨_, _, rfl, rfl, by decide⟩, ⟨_, _, rfl, rfl, by decide, rfl⟩⟩
theorem witness_CommandsAppliedInFrameOrder : State.reset.fill = 0 := rfl
theorem witness_UnknownSymbolRaisesTheAssertion :
    ({ State.reset with input := [.symbol 0b00011#5] } : State).input = .symbol 0b00011#5 :: [] ∧
    symbolOfCode? 0b00011#5 = none ∧ symbolOfCode? 0b11111#5 = none ∧
    ({ State.reset with input := [.symbol 0b10000#5] } : State).input = .symbol Symbol.stop.code :: [] := by decide
theorem witness_FaultClearedOnlyByReset :
    (∃ t, step { State.reset with fault := true, input := [.port 0x7FF#11] } = .next t ∧ t.fault = false) ∧
    (∃ t, step { State.reset with fault := true, input := [.clock ⟨true, .symIn true 0b00011#5⟩] } = .next t ∧
      t.fault = false) := ⟨⟨_, rfl, rfl⟩, ⟨_, rfl, rfl⟩⟩
theorem witness_FaultOnlyFromAnIllegalCode :
    (∃ t, step { State.reset with input := [.symbol 0b11111#5] } = .next t ∧ t.fault = true) ∧
    (∃ t, step { State.reset with input := [.clock ⟨false, .symIn true 0b11111#5⟩] } = .next t ∧ t.fault = true) :=
  ⟨⟨_, rfl, rfl⟩, ⟨_, rfl, rfl⟩⟩
theorem witness_ClampLaws : (-1 : Int) < 0 ∧ (101 : Int) > (par .pivot).maxDuty ∧ (0 : Int) ≤ (par .pivot).maxDuty ∧
    (100 : Int) ≤ (par .pivot).maxDuty := by decide
theorem witness_ChannelResults (c : ChannelCall) :
    ({ State.reset with input := [.channel c] } : State).input = .channel c :: [] ∧
    ({ State.reset with input := [.channel c] } : State).burstCnt = 0 ∧ (0 : Int) ≤ 0 := ⟨rfl, rfl, by decide⟩
theorem witness_Primitives : State.reset.burstCnt = 0 ∧
    (P.spinMode = .counterRotate ∨ P.spinMode = .pivot) := by
  refine ⟨rfl, ?_⟩
  cases P.spinMode <;> simp
theorem witness_ComposedPrimitiveWithItsOwnDuty :
    ({ State.reset with input := [.composed (.move .spinLeft) (-1)] } : State).burstCnt = 0 ∧
    ({ State.reset with input := [.composed (.move .spinLeft) (-1)] } : State).input =
      .composed (.move .spinLeft) (-1) :: [] := ⟨rfl, rfl⟩
theorem witness_PairInvariantAtEveryInstant : (held .right ⟨60, 0, 0, 60⟩).duty.pairOk := by decide
theorem witness_IllegalActuatorCodeWritesNothing :
    (∀ v x, (offer 0x00#8).drive ≠ .actIn v x) ∧ commandCode (offer 0x00#8) cycle8 = some 0b00001#5 ∧
    (∀ q : Primitive, (0b00000#5 : Code) ≠ q.code) ∧ (∀ q : Primitive, (0b11111#5 : Code) ≠ q.code) ∧
    State.reset.burstCnt = 0 := by
  refine ⟨by simp [offer], by decide, ?_, ?_, rfl⟩
  all_goals
    intro q
    rcases q with m | _
    · cases m <;> decide
    · decide
theorem witness_CruiseDutyCorners : (⟨100, 100, 1, 1, .pivot⟩ : Params).cruiseDuty ≥
      ((⟨100, 100, 1, 1, .pivot⟩ : Params).maxDuty : Int) ∧
    (⟨100, 0, 1, 1, .pivot⟩ : Params).cruiseDuty ≤ 0 ∧ target .left = some .left ∧ State.reset.mstate ≠ .left := by decide
theorem witness_ActuatorRegistersStayLegal : ∃ t,
    State.actuatorOk P { State.reset with burstCnt := P.burstTicks } ∧
    step { State.reset with burstCnt := P.burstTicks } = .next t :=
  ⟨_, ⟨by decide, ⟨Nat.zero_le _, Nat.zero_le _, Nat.zero_le _, Nat.zero_le _⟩, Nat.le_refl _⟩, rfl⟩
theorem witness_CycleLevelMotion :
    presentedCode ⟨false, .symIn true 0b00000#5⟩ State.reset = some Symbol.rep.code ∧
    presentedCode (offer 0x00#8) cycle8 = some Symbol.forward.code ∧ cycle8.burstCnt = 0 ∧
    presentedCode idlePins State.reset = none ∧ cycle11.burstCnt ≠ 0 ∧
    presentedCode ⟨false, .symIn true 0b00011#5⟩ State.reset = some 0b00011#5 ∧ symbolOfCode? 0b00011#5 = none ∧
    presentedCode ⟨false, .actIn true 0b00001#5⟩ State.reset = none := by
  decide
theorem witness_BurstTiming : State.reset.burstCnt = 0 ∧
    commandCode ⟨false, .actIn true 0b00001#5⟩ State.reset = some (Primitive.move .forward).code ∧
    ([] : List Pins).length < P.burstTicks ∧ (List.replicate P.burstTicks idlePins).length = P.burstTicks ∧
    ∀ q ∈ List.replicate P.burstTicks idlePins, q.rst = false :=
  ⟨rfl, by decide, Nat.succ_pos _, List.length_replicate .., fun q h => by rw [List.eq_of_mem_replicate h]; rfl⟩
theorem witness_BackPressure : byteCycle (offer 0xFF#8) = true ∧ (offer 0xFF#8).rst = false ∧ cycle11.burstCnt ≠ 0 ∧
    commandCode (offer 0x00#8) cycle8 = some (Primitive.move .forward).code ∧ ([] : List Pins).length < P.burstTicks :=
  ⟨rfl, rfl, by decide, by decide, Nat.succ_pos _⟩
/-- The byte that completes a frame, one that does not at the same count, one at a lower count, and one not accepted. -/
theorem witness_BackPressure_accept : cycle8.burstCnt = 0 ∧ 7 ≤ cycle8.fill.val ∧
    (clockCycle P (offer 0x00#8) cycle8).window.toList = frameOf .forward ∧
    (clockCycle P (offer 0x00#8) cycle8).fill = 0 ∧ (clockCycle P (offer 0xFF#8) cycle8).fill = 8 ∧
    (clockCycle P (offer 0xFF#8) State.reset).fill = 1 ∧ (clockCycle P (offer 0xFF#8) cycle11).fill = 0 := by
  refine ⟨rfl, by decide, ?_, ?_, ?_, ?_, ?_⟩ <;> rfl
theorem witness_CycleLevelRefinesEventLevel : byteCycle (offer 0x00#8) = true ∧ cycle8.burstCnt = 0 ∧
    eventOf (offer 0x00#8) cycle8 = some (.rxbyte 0x00#8) ∧ eventOf idlePins cycle8 = none ∧
    eventOf ⟨true, .codec true 0x00#8 true⟩ cycle8 = some .reset ∧
    eventOf ⟨false, .codec true 0x00#8 true⟩ cycle8 = some .flush := by decide
theorem witness_NoWatchdog : byteCycle (offer 0xFF#8) = true ∧ (offer 0xFF#8).rst = false ∧
    emittedSymbol (offer 0xFF#8) cycle8 = none ∧ cycle8.burstCnt = 0 ∧ State.reset.input = [] := by decide
theorem witness_StreamingAgreesWithTheLoop : State.reset.fill = 0 ∧ State.reset.burstCnt = 0 := by decide
theorem witness_DutiesStayThoseOfTheState : ∃ s t : State, s.burstCnt = 1 ∧ s.assembledOk P ∧ step s = .next t :=
  ⟨{ held .forward (burstDuties P (.move .forward)) with burstCnt := 1, input := [.port 0x1FF#11, .clock idlePins] }, _,
    rfl, ⟨by decide, rfl, rfl, rfl⟩, rfl⟩
/-- For `DutiesAreThoseOfTheStateAtReset` as well. -/
theorem witness_RunEndsWithTheDutiesOfItsState :
    (∀ i ∈ [Input.snapshot [], .port 0x400#11, .clock idlePins], assembledInput i = true) ∧
    (∃ t, Host.Core.run Sys2Proof.core 1 ({ State.reset with input := [.port 0x400#11] } : State) = .next t ∧
      t.burstCnt = 0) := ⟨by decide, _, rfl, rfl⟩
theorem witness_SingleWriter : (codecAccept cycle8.window 7 0xFF#8).emitted = none ∧
    ({ cycle8 with input := [.symbol 0b00011#5] } : State).input = .symbol 0b00011#5 :: [] ∧
    ({ cycle8 with input := [.channel (.stop .a)] } : State).input = .channel (.stop .a) :: [] ∧
    ({ cycle8 with input := [.composed .stop 0] } : State).input = .composed .stop 0 :: [] ∧
    byteCycle ⟨false, .symIn true 0b00001#5⟩ = false ∧ (∀ v x, (offer 0xFF#8).drive ≠ .symIn v x) ∧
    (cycle8.burstCnt = 0 ↔ State.reset.burstCnt = 0) := by
  refine ⟨by decide, rfl, rfl, rfl, rfl, by simp [offer], Iff.rfl⟩
theorem witness_BusyBlockFinishesItsBurstFirst : Instr.rxbyte 0x00#8 ≠ .flush ∧ Instr.rxbyte 0x00#8 ≠ .reset ∧
    cycle11.burstCnt ≠ 0 ∧
    (∀ i : Input, ({ cycle11 with input := [i] } : State).input = i :: [] ∧
      ({ cycle11 with input := [i] } : State).burstCnt ≠ 0) :=
  ⟨by decide, by decide, by decide, fun _ => ⟨rfl, Nat.one_ne_zero⟩⟩
/-- A per-channel primitive that finds the burst in its last cycle: the burst ends first, and then the pins are written. -/
theorem test_busy_channel_call :
    (channelCall (par .pivot) (.stop .a) cycle11).duty = ⟨0, 0, 60, 0⟩ ∧
    (channelCall (par .pivot) (.stop .a) cycle11).trace =
      [.wait 1, .writeAll ⟨60, 0, 60, 0⟩, .write .af 0, .write .ab 0] := by decide
theorem witness_StepRunsTheDecodedInstruction :
    decodeInstr (.frame (frameOf .left)) = .ok .left ∧
    Raw.wf (.frame (List.replicate 8 0x00#8)) = true ∧
    decodeInstr (.frame (List.replicate 8 0x00#8)) = .error .header ∧ State.reset.input = [] :=
  ⟨rfl, rfl, rfl, rfl⟩
theorem witness_FetchWordRunsTheInstruction : decodeTableWord 8 0x10 = some .pStop ∧
    decodeTableWord 16 0x7FF = some .reset := by decide
theorem witness_SymbolPort : offer 0x00#8 = ⟨false, .codec true 0x00#8 false⟩ ∧ cycle8.burstCnt = 0 ∧
    7 ≤ cycle8.fill.val ∧ [cycle8.window.w1, cycle8.window.w2, cycle8.window.w3, cycle8.window.w4, cycle8.window.w5,
      cycle8.window.w6, cycle8.window.w7, 0x00#8] = frameOf .forward ∧
    (outputs (offer 0x00#8) cycle8).sym = some 0b00001#5 ∧ (outputs (offer 0x01#8) cycle8).sym = none := by decide
/-- A step by RESET, which writes every duty register. -/
theorem witness_WritesShownAccountForTheDuties : State.writesShown { State.reset with input := [.port 0x400#11] } ∧
    ∃ t, step { State.reset with input := [.port 0x400#11] } = .next t ∧ t.trace = [.writeAll ⟨0, 0, 0, 0⟩] :=
  ⟨rfl, _, rfl, rfl⟩
theorem witness_CycleLevelWritesAreShown : (offer 0x00#8).rst = false ∧ cycle8.burstCnt = 0 ∧
    commandCode (offer 0x00#8) cycle8 = some (Primitive.move .forward).code ∧ cycle11.burstCnt = 1 ∧
    1 < ({ cycle11 with burstCnt := 2 } : State).burstCnt ∧
    (∀ q : Primitive, commandCode idlePins cycle8 ≠ some q.code) := by
  refine ⟨rfl, rfl, by decide, rfl, by decide, fun q => ?_⟩
  simp [show commandCode idlePins cycle8 = none by decide]
/-- REPEAT in Forward at the cruise duties: all its writes are shown, though the duties end as they began. -/
theorem test_repeat_shows_its_writes :
    let t := applySymbol (par .counterRotate) .rep (held .forward ⟨60, 0, 60, 0⟩)
    t.duty = ⟨60, 0, 60, 0⟩ ∧ shownWrites t.trace =
      [.write .ab 0, .write .af 100, .write .bb 0, .write .bf 100, .wait 1, .write .ab 0, .write .af 60, .write .bb 0,
        .write .bf 60] := by decide
theorem witness_EveryCallShowsItsWrites : State.reset.burstCnt = 0 ∧ Instr.repeatHeld ≠ .reset := by decide

end Sys2Proof.Tests
end

section
/-! SUPPORT. A clock cycle of the byte interface beside the event it carries: idle cycles let the burst run out as
`settle` does, and a symbol emitted in a cycle steers the block by the table of 41_motion_fsm.md R150, as `apply` does
at the event level (00_scope.md R6, 42_actuator.md R187). -/

namespace Sys2Proof.Machine

open Sys2Proof.Claims

/-! ## States that agree on the registers -/

theorem sameRegisters_symm {s t : State} (h : sameRegisters s t) : sameRegisters t s := by
  obtain ⟨h1, h2, h3, h4, h5, h6, h7⟩ := h
  exact ⟨h1.symm, h2.symm, h3.symm, h4.symm, h5.symm, h6.symm, h7.symm⟩

theorem sameRegisters_setMstate {s t : State} (h : sameRegisters s t) (m : Movement) :
    sameRegisters (s.setMstate m) (t.setMstate m) := by
  obtain ⟨hw, hf, -, he, hd, hn, hc⟩ := h
  exact ⟨hw, hf, rfl, he, hd, hn, hc⟩

theorem sameRegisters_tick (p : Params) {s t : State} (h : sameRegisters s t) :
    sameRegisters (tick p s) (tick p t) := by
  obtain ⟨hw, hf, hm, he, hd, hn, hc⟩ := h
  simp [sameRegisters, tick_eq, hw, hf, hm, he, hd, hn, hc]

theorem sameRegisters_settle (p : Params) {s t : State} (h : sameRegisters s t) :
    sameRegisters (settle p s) (settle p t) := by
  obtain ⟨hw, hf, hm, he, hd, hn, hc⟩ := h
  simp [sameRegisters, settle_duty, hw, hf, hm, he, hd, hn, hc]

theorem settle_sameRegisters_of_idle (p : Params) {s t : State} (h : sameRegisters s t) (h0 : t.burstCnt = 0) :
    sameRegisters (settle p s) t := by
  have hs := sameRegisters_settle p h
  rwa [settle_of_idle p t h0] at hs

theorem settle_setMstate (p : Params) (s : State) (m : Movement) :
    settle p (s.setMstate m) = (settle p s).setMstate m :=
  (apply_ite (State.setMstate · m) (s.burstCnt = 0) s (endBurst p s)).symm

/-! ## The byte interface in one cycle -/

/-- A byte is accepted exactly when it is offered alone to a block that is not busy (43_top_loop.md R203). -/
theorem acceptedByte_eq_some {pins : Pins} {s : State} {b : Byte} :
    acceptedByte pins s = some b ↔ pins = ⟨false, .codec true b false⟩ ∧ s.burstCnt = 0 := by
  obtain ⟨rst, drive⟩ := pins
  cases drive with
  | codec valid data flush =>
    simp only [acceptedByte, rxReady, flushPin, busy, Pins.mk.injEq, Drive.codec.injEq]
    cases rst <;> cases valid <;> cases flush <;> simp [and_comm]
  | symIn valid code => simp [acceptedByte]
  | actIn valid code => simp [acceptedByte]

theorem byteCycle_of_accepted {pins : Pins} {s : State} {b : Byte} (hacc : acceptedByte pins s = some b) :
    byteCycle pins = true ∧ pins.rst = false ∧ s.burstCnt = 0 := by
  obtain ⟨rfl, h0⟩ := acceptedByte_eq_some.1 hacc
  exact ⟨rfl, rfl, h0⟩

/-- What a cycle of the byte interface is, with no burst in progress, and the event it carries (30_encoding.md R87). -/
theorem byteCycle_cases {pins : Pins} {s : State} (hbyte : byteCycle pins = true) (h0 : s.burstCnt = 0) :
    (pins.rst = true ∧ eventOf pins s = some .reset) ∨
    (pins.rst = false ∧ acceptedByte pins s = none ∧ flushPin pins = true ∧ eventOf pins s = some .flush) ∨
    (∃ b, acceptedByte pins s = some b ∧ eventOf pins s = some (.rxbyte b)) ∨
    (pins.rst = false ∧ acceptedByte pins s = none ∧ flushPin pins = false ∧ eventOf pins s = none) := by
  obtain ⟨rst, drive⟩ := pins
  cases drive with
  | codec valid data flush =>
    cases rst <;> cases flush <;> cases valid <;> simp [eventOf, acceptedByte, rxReady, flushPin, busy, h0]
  | symIn valid code => cases hbyte
  | actIn valid code => cases hbyte

theorem codecEdge_of_accepted {pins : Pins} {s : State} {b : Byte} (hacc : acceptedByte pins s = some b) :
    codecEdge pins s = s.setCodec (s.window.shift b) (codecAccept s.window s.fill b).fill := by
  obtain ⟨rfl, -⟩ := acceptedByte_eq_some.1 hacc
  simp [codecEdge, hacc, flushPin]

theorem codecAccept_fill_of_emitted {w : Window} {f : Fin 9} {b : Byte} {sym : Symbol}
    (he : (codecAccept w f b).emitted = some sym) : (codecAccept w f b).fill = 0 := by
  rcases codecAccept_cases w f b with ⟨-, -, h⟩ | ⟨-, -, -, h⟩ | ⟨-, -, -, h, -⟩
  · rw [h] at he; cases he
  · rw [h] at he; cases he
  · exact Fin.ext h

/-! ## Cycles that emit no symbol -/

theorem presentedCode_of_byteCycle {pins : Pins} {s : State} (hbyte : byteCycle pins = true)
    (hrst : pins.rst = false) : presentedCode pins s = (emittedSymbol pins s).map Symbol.code := by
  obtain ⟨rst, drive⟩ := pins
  cases drive with
  | codec valid data flush => simp [presentedCode, show rst = false from hrst]
  | symIn valid code => cases hbyte
  | actIn valid code => cases hbyte

theorem commandCode_of_byteCycle {pins : Pins} {s : State} (hbyte : byteCycle pins = true) (hrst : pins.rst = false) :
    commandCode pins s = (actedCode pins s).bind fun c =>
      if actValidFlag s.mstate.code c then some (actCmdOf s.mstate.code c) else none := by
  obtain ⟨rst, drive⟩ := pins
  cases drive with
  | codec valid data flush =>
    simp only [commandCode, show rst = false from hrst]
    cases actedCode ⟨false, .codec valid data flush⟩ s <;> rfl
  | symIn valid code => cases hbyte
  | actIn valid code => cases hbyte

/-- Without a symbol the state machine holds and the Actuator only counts: the Codec's registers apart, the cycle is a
tick of the burst counter (41_motion_fsm.md R155, 42_actuator.md R187). -/
theorem clockCycle_of_not_emitted (p : Params) {pins : Pins} {s : State} (hbyte : byteCycle pins = true)
    (hrst : pins.rst = false) (he : emittedSymbol pins s = none) :
    sameRegisters (clockCycle p pins s)
      ((tick p s).setCodec (codecEdge pins s).window (codecEdge pins s).fill) := by
  have hpres : presentedCode pins s = none := by rw [presentedCode_of_byteCycle hbyte hrst, he]; rfl
  have hmotion : motionEdge pins s s = s := by simp [motionEdge, hpres]
  have hcmd : commandCode pins s = none := by simp [commandCode_of_byteCycle hbyte hrst, actedCode, hpres]
  have hact : actuatorEdge p pins s s = tick p s := by
    rcases actuatorEdge_cases p pins s s with ⟨-, h⟩ | ⟨h0, -, h⟩ | ⟨prim, -, h, -⟩
    · exact h
    · rw [h, tick, if_pos h0]
    · rw [hcmd] at h; cases h
  rw [clockCycle_eq p pins s hrst, hmotion, hact]
  simp [sameRegisters, tick_eq]

/-- A cycle that accepts no byte is a tick of the burst counter, with `fill` cleared under `rx_flush`
(40_frame_codec.md R109). -/
theorem clockCycle_of_no_byte (p : Params) {pins : Pins} {s : State} (hbyte : byteCycle pins = true)
    (hrst : pins.rst = false) (hacc : acceptedByte pins s = none) :
    sameRegisters (clockCycle p pins s) ((tick p s).setFill (if flushPin pins then 0 else s.fill)) := by
  have he : emittedSymbol pins s = none := by simp [emittedSymbol, hacc]
  have hcodec : codecEdge pins s = s.setFill (if flushPin pins then 0 else s.fill) := by
    unfold codecEdge
    split_ifs
    · rfl
    · rw [hacc]; rfl
  refine sameRegisters_trans (clockCycle_of_not_emitted p hbyte hrst he) ?_
  rw [hcodec]
  simp [sameRegisters, tick_eq]

/-! ## Idle cycles -/

theorem clockCycle_idle (p : Params) (s : State) : sameRegisters (clockCycle p idlePins s) (tick p s) := by
  have h := clockCycle_of_no_byte p (pins := idlePins) (s := s) rfl rfl rfl
  simpa [sameRegisters, flushPin, idlePins, tick_eq] using h

theorem clockRun_idle (p : Params) (n : Nat) (s : State) :
    sameRegisters (clockRun p (List.replicate n idlePins) s) ((tick p)^[n] s) := by
  induction n with
  | zero => exact sameRegisters_refl s
  | succ n ih =>
    rw [List.replicate_succ', clockRun_snoc, Function.iterate_succ_apply']
    exact sameRegisters_trans (clockCycle_idle p _) (sameRegisters_tick p ih)

/-- Idle cycles as many as the burst has left are the rest of the burst (42_actuator.md R183, R187). -/
theorem clockRun_idle_burst (p : Params) (s : State) :
    sameRegisters (clockRun p (List.replicate s.burstCnt idlePins) s) (settle p s) := by
  rw [← tick_iterate p s.burstCnt s rfl]
  exact clockRun_idle p s.burstCnt s

/-! ## A symbol by the table of 41_motion_fsm.md R150, at both levels -/

theorem cell_rep (held : Movement) : cell held .rep = (held, some (prim held), false) := by
  cases held <;> rfl

theorem cell_of_change {held m : Movement} {sym : Symbol} (ht : target sym = some m) (hm : m ≠ held) :
    cell held sym = (m, some (prim m), true) := by
  revert hm
  cases sym <;> cases ht <;> cases held <;> simp [cell, prim]

theorem cell_of_held {held : Movement} {sym : Symbol} (ht : target sym = some held) :
    cell held sym = (held, none, false) := by
  cases sym <;> cases ht <;> rfl

/-- `act_valid` and `act_cmd` of a legal symbol are the call of its cell (41_motion_fsm.md R155). -/
theorem actCmd_eq_cell (held : Movement) (sym : Symbol) :
    (if actValidFlag held.code sym.code then some (actCmdOf held.code sym.code) else none) =
      (cell held sym).2.1.map Primitive.code := by
  cases held <;> cases sym <;> rfl

/-- What `mstate` takes under `changed` is the next state of the cell (41_motion_fsm.md R155). -/
theorem nextMovement_eq_cell (held : Movement) (sym : Symbol) :
    (if changedFlag held.code sym.code then (movementOfCode? sym.code).getD held else held) = (cell held sym).1 := by
  cases held <;> cases sym <;> rfl

/-- `apply` calls the primitive of its cell, if it has one, and then holds the cell's state. -/
theorem applySymbol_cell (p : Params) (sym : Symbol) (s : State) (h0 : s.burstCnt = 0) :
    sameRegisters (applySymbol p sym s)
      (((cell s.mstate sym).2.1.elim s (callPrimitive p · p.cruiseDuty s)).setMstate (cell s.mstate sym).1) := by
  have hs := settle_of_idle p s h0
  rcases applySymbol_cases p sym s with ⟨rfl, h⟩ | ⟨m, ht, hm, h⟩ | ⟨ht, h⟩
  · rw [h, hs, cell_rep]
    simp [sameRegisters]
  · rw [h, hs, cell_of_change ht hm]
    exact sameRegisters_refl _
  · rw [h, hs, cell_of_held ht]
    exact sameRegisters_refl _

/-- A cycle that emits a symbol issues the primitive of its cell, if it has one, and takes the cell's state. -/
theorem clockCycle_cell (p : Params) {pins : Pins} {s : State} {b : Byte} {sym : Symbol}
    (hacc : acceptedByte pins s = some b) (he : (codecAccept s.window s.fill b).emitted = some sym) :
    sameRegisters (clockCycle p pins s)
      (((cell s.mstate sym).2.1.elim (codecEdge pins s) (issue p · (codecEdge pins s))).setMstate
        (cell s.mstate sym).1) := by
  obtain ⟨hbyte, hrst, h0⟩ := byteCycle_of_accepted hacc
  have hbusy : busy s = false := by simp [busy, h0]
  have hpres : presentedCode pins s = some sym.code := by
    rw [presentedCode_of_byteCycle hbyte hrst]
    simp [emittedSymbol, hacc, he]
  have hacted : actedCode pins s = some sym.code := by
    simp [actedCode, hpres, legalSymbol, hbusy]
  have hcmd : commandCode pins s = (cell s.mstate sym).2.1.map Primitive.code := by
    rw [commandCode_of_byteCycle hbyte hrst, hacted]
    exact actCmd_eq_cell s.mstate sym
  have hmotion : motionEdge pins s s = s.setMstate (cell s.mstate sym).1 := by
    rw [← nextMovement_eq_cell]
    simp only [motionEdge, hpres, hacted, legalSymbol, symbolOfCode?_code, Option.isSome_some, if_true]
    split_ifs <;> rfl
  have hact : actuatorEdge p pins s s = (cell s.mstate sym).2.1.elim s (issue p · s) := by
    simp only [actuatorEdge, hbusy, hcmd]
    cases (cell s.mstate sym).2.1 <;> simp
  obtain ⟨w, f, hcodec⟩ := codecEdge_eq pins s
  rw [clockCycle_eq p pins s hrst, hmotion, hact, hcodec]
  cases (cell s.mstate sym).2.1 <;> simp [sameRegisters, issue_eq]

/-! ## The primitive at both levels -/

/-- A primitive issued on an edge is, once its burst has run out, the whole primitive of the event level
(42_actuator.md R176, R187). -/
theorem settle_issue (p : Params) (q : Primitive) {s : State} (hticks : p.burstTicks ≠ 0) (h0 : s.burstCnt = 0) :
    sameRegisters (settle p (issue p q s)) (callPrimitive p q p.cruiseDuty s) := by
  rw [issue_eq, callPrimitive_eq]
  cases q with
  | stop => simp [sameRegisters, settle_duty, h0, burstDuties, dutyRow]
  | move m => simp [sameRegisters, settle_duty, hticks, cruiseDuties]

theorem settle_elim_issue (p : Params) (o : Option Primitive) {s : State} (hticks : p.burstTicks ≠ 0)
    (h0 : s.burstCnt = 0) :
    sameRegisters (settle p (o.elim s (issue p · s))) (o.elim s (callPrimitive p · p.cruiseDuty s)) := by
  cases o with
  | none => exact settle_sameRegisters_of_idle p (sameRegisters_refl s) h0
  | some q => exact settle_issue p q hticks h0

/-! ## The event of a cycle, once its burst is over -/

theorem clockCycle_of_no_byte_idle (p : Params) {pins : Pins} {s : State} (hbyte : byteCycle pins = true)
    (hrst : pins.rst = false) (hacc : acceptedByte pins s = none) (h0 : s.burstCnt = 0) :
    sameRegisters (clockCycle p pins s) (s.setFill (if flushPin pins then 0 else s.fill)) := by
  have h := clockCycle_of_no_byte p hbyte hrst hacc
  rwa [tick, if_pos h0] at h

theorem settle_clockCycle_rst (p : Params) {pins : Pins} (s : State) (hrst : pins.rst = true) :
    sameRegisters (settle p (clockCycle p pins s)) (resetBlock s) := by
  rw [clockCycle_rst p pins s hrst, settle_of_idle p _ rfl]
  exact sameRegisters_refl _

theorem settle_clockCycle_flush (p : Params) {pins : Pins} {s : State} (hbyte : byteCycle pins = true)
    (hrst : pins.rst = false) (hacc : acceptedByte pins s = none) (hflush : flushPin pins = true)
    (h0 : s.burstCnt = 0) : sameRegisters (settle p (clockCycle p pins s)) (flushCodec s) := by
  have h := clockCycle_of_no_byte_idle p hbyte hrst hacc h0
  rw [if_pos hflush] at h
  exact settle_sameRegisters_of_idle p h h0

theorem settle_clockCycle_of_accepted_not_emitted (p : Params) {pins : Pins} {s : State} {b : Byte}
    (hacc : acceptedByte pins s = some b) (he : (codecAccept s.window s.fill b).emitted = none) :
    sameRegisters (settle p (clockCycle p pins s))
      (s.setCodec (s.window.shift b) (codecAccept s.window s.fill b).fill) := by
  obtain ⟨hbyte, hrst, h0⟩ := byteCycle_of_accepted hacc
  have hnone : emittedSymbol pins s = none := by simp [emittedSymbol, hacc, he]
  have hcycle := clockCycle_of_not_emitted p hbyte hrst hnone
  rw [tick, if_pos h0, codecEdge_of_accepted hacc] at hcycle
  exact settle_sameRegisters_of_idle p hcycle h0

/-- A symbol emitted in a cycle is issued where `apply` calls the whole primitive, in the state with the emptied Codec
(40_frame_codec.md R108, 43_top_loop.md R202). -/
theorem settle_clockCycle_of_emitted (p : Params) {pins : Pins} {s : State} {b : Byte} {sym : Symbol}
    (hticks : p.burstTicks ≠ 0) (hacc : acceptedByte pins s = some b)
    (he : (codecAccept s.window s.fill b).emitted = some sym) :
    sameRegisters (settle p (clockCycle p pins s)) (applySymbol p sym (s.setCodec (s.window.shift b) 0)) := by
  obtain ⟨-, -, h0⟩ := byteCycle_of_accepted hacc
  have hcycle := clockCycle_cell p hacc he
  rw [codecEdge_of_accepted hacc, codecAccept_fill_of_emitted he] at hcycle
  have hs := sameRegisters_settle p hcycle
  rw [settle_setMstate] at hs
  have hcall := settle_elim_issue p (cell s.mstate sym).2.1 (s := s.setCodec (s.window.shift b) 0) hticks h0
  have happly := applySymbol_cell p sym (s.setCodec (s.window.shift b) 0) h0
  exact sameRegisters_trans hs (sameRegisters_trans (sameRegisters_setMstate hcall _) (sameRegisters_symm happly))

/-- A cycle that accepts a byte and the burst it may start come to RXBYTE of that byte. -/
theorem settle_clockCycle_of_accepted (p : Params) {pins : Pins} {s : State} {b : Byte} (hticks : p.burstTicks ≠ 0)
    (hacc : acceptedByte pins s = some b) :
    sameRegisters (settle p (clockCycle p pins s)) (receiveByte p b s) := by
  obtain ⟨-, -, h0⟩ := byteCycle_of_accepted hacc
  rcases receiveByte_cases p b s with ⟨he, h⟩ | ⟨sym, he, h⟩ <;> rw [h, settle_of_idle p s h0]
  · exact settle_clockCycle_of_accepted_not_emitted p hacc he
  · exact settle_clockCycle_of_emitted p hticks hacc he

theorem params_burstTicks_ne_zero : P.burstTicks ≠ 0 := Nat.succ_ne_zero _

end Sys2Proof.Machine

namespace Sys2Proof.Claims

open Sys2Proof.Machine

/-- Settles O41: idle cycles are `settle` (`clockRun_idle_burst`), and `settle` of the cycle is the event, by the
cases of `byteCycle_cases`. -/
theorem cycleLevelRefinesEventLevel : Obligations.CycleLevelRefinesEventLevel := by
  intro pins s hbyte h0
  have hrun := clockRun_idle_burst P (clockCycle P pins s)
  rcases byteCycle_cases hbyte h0 with ⟨hrst, hev⟩ | ⟨hrst, hacc, hflush, hev⟩ | ⟨b, hacc, hev⟩ |
    ⟨hrst, hacc, hflush, hev⟩ <;> rw [hev]
  · exact ⟨_, exec_reset s, sameRegisters_trans hrun (settle_clockCycle_rst P s hrst)⟩
  · exact ⟨_, exec_flush s, sameRegisters_trans hrun (settle_clockCycle_flush P hbyte hrst hacc hflush h0)⟩
  · exact ⟨_, exec_rxbyte b s, sameRegisters_trans hrun
      (settle_clockCycle_of_accepted P params_burstTicks_ne_zero hacc)⟩
  · have h := clockCycle_of_no_byte_idle P hbyte hrst hacc h0
    rwa [hflush] at h

end Sys2Proof.Claims
end

section
/-! SUPPORT. What one step and one instruction can lead to, said once: by the kind of the input taken, and by the class of
the instruction's interface (43_top_loop.md R200, R202). -/

namespace Sys2Proof.Machine

open Sys2Proof.Claims

/-- What a step from `s` can lead to, by the kind of the input it takes; the input is removed first. -/
inductive StepResult (s : State) : State → Prop
  | time (h : s.input = []) : StepResult s (tick P s)
  | ignored : StepResult s (s.setInput s.input.tail)
  | instr {t : State} (i : Instr) (h : exec i (s.setInput s.input.tail) = .next t) : StepResult s t
  | commands (syms : List Symbol) :
    StepResult s (syms.foldl (fun u sym => applySymbol P sym u) (s.setInput s.input.tail))
  | unknown (c : Code) (h : symbolOfCode? c = none) (hin : ∃ rest, s.input = .symbol c :: rest) :
    StepResult s (raiseUnknownSymbol c (s.setInput s.input.tail))
  | channel (c : ChannelCall) : StepResult s (channelCall P c (s.setInput s.input.tail))
  | composed (q : Primitive) (d : Int) : StepResult s (actuate P q d (s.setInput s.input.tail))
  | clock (pins : Pins) (hin : ∃ rest, s.input = .clock pins :: rest) :
    StepResult s (clockCycle P pins (s.setInput s.input.tail))

theorem stepResult_of_step {s t : State} (h : step s = .next t) : StepResult s t := by
  cases hin : s.input with
  | nil =>
    rw [step_nil s hin] at h
    cases h
    exact .time hin
  | cons i rest =>
    obtain rfl : s.input.tail = rest := by rw [hin]; rfl
    rw [step_cons s i _ hin] at h
    rcases takeInput_cases i (s.setInput s.input.tail) with hi | ⟨instr, hi⟩ | ⟨syms, hi⟩ | ⟨c, rfl, hc, hi⟩ |
      ⟨c, rfl, hi⟩ | ⟨q, d, rfl, hi⟩ | ⟨pins, rfl, hi⟩ <;> rw [hi] at h
    · cases h; exact .ignored
    · exact .instr instr h
    · rw [runCommands_eq] at h
      cases h; exact .commands syms
    · cases h; exact .unknown c hc ⟨_, hin⟩
    · cases h; exact .channel c
    · cases h; exact .composed q d
    · cases h; exact .clock pins ⟨_, hin⟩

/-- What an instruction can lead to, by the class of its interface. -/
inductive ExecResult (s : State) : State → Prop
  | command (sym : Symbol) : ExecResult s (applySymbol P sym s)
  | primitive (q : Primitive) : ExecResult s (actuate P q P.cruiseDuty s)
  | reset : ExecResult s (resetBlock s)
  | flush : ExecResult s (flushCodec s)
  | byte (b : Byte) : ExecResult s (receiveByte P b s)

theorem exec_completes (i : Instr) (s : State) : ∃ t, exec i s = .next t ∧ ExecResult s t := by
  rcases instr_cases i with ⟨sym, rfl⟩ | ⟨q, rfl⟩ | rfl | rfl | ⟨b, rfl⟩
  · exact ⟨_, exec_ofSymbol sym s, .command sym⟩
  · exact ⟨_, exec_ofPrimitive q s, .primitive q⟩
  · exact ⟨_, exec_reset s, .reset⟩
  · exact ⟨_, exec_flush s, .flush⟩
  · exact ⟨_, exec_rxbyte b s, .byte b⟩

theorem execResult_of_exec {i : Instr} {s t : State} (h : exec i s = .next t) : ExecResult s t := by
  obtain ⟨u, hu, hres⟩ := exec_completes i s
  rw [hu] at h
  cases h
  exact hres

end Sys2Proof.Machine
end

section
/-! SUPPORT. The Actuator's registers stay legal: each channel's pair, the range of the duties and the burst counter
(10_state.md R24, R25, 42_actuator.md R172, R182). -/

namespace Sys2Proof.Machine

open Sys2Proof.Claims

/-! ## Legal duties -/

/-- Duties that 10_state.md R24 allows: each channel's pair and the range. -/
def Duties.legal (p : Params) (d : Duties) : Prop :=
  d.pairOk ∧ d.inRange p

theorem actuatorOk_iff {p : Params} {s : State} :
    s.actuatorOk p ↔ s.duty.legal p ∧ s.burstCnt ≤ p.burstTicks :=
  and_assoc.symm

theorem actuatorOk_of_eq {p : Params} {s t : State} (h : s.actuatorOk p) (hd : t.duty = s.duty)
    (hn : t.burstCnt = s.burstCnt) : t.actuatorOk p := by
  rw [actuatorOk_iff] at h ⊢
  rwa [hd, hn]

theorem dutyRow_legal (p : Params) (mode : SpinMode) {c : Nat} (h : c ≤ p.maxDuty) (q : Primitive) :
    (dutyRow mode c q).legal p :=
  ⟨dutyRow_pairOk mode c q, dutyRow_inRange p mode h q⟩

theorem cruiseDuties_legal (p : Params) (q : Primitive) : (cruiseDuties p q).legal p :=
  dutyRow_legal p p.spinMode (clamp_le p p.cruiseDuty) q

theorem burstDuties_legal (p : Params) (q : Primitive) : (burstDuties p q).legal p :=
  dutyRow_legal p p.spinMode (Nat.le_refl _) q

/-- A per-channel primitive zeroes one pin of its channel and clamps the other (42_actuator.md R173 to R175). -/
theorem channelWrites_legal (p : Params) (c : ChannelCall) {d : Duties} (h : d.legal p) :
    ((channelWrites p c).foldl (fun d w => d.set w.1 w.2) d).legal p := by
  obtain ⟨⟨ha, hb⟩, haf, hab, hbf, hbb⟩ := h
  rcases c with ⟨x, k⟩ | ⟨x, k⟩ | x <;> cases x <;>
    simp [Duties.legal, Duties.pairOk, Duties.inRange, channelWrites, chForward, chBackward, chStop, fwdPin, bwdPin,
      Duties.set, clamp_le, *]

/-! ## The event level -/

theorem settle_actuatorOk {p : Params} {s : State} (h : s.actuatorOk p) : (settle p s).actuatorOk p := by
  rw [actuatorOk_iff] at h ⊢
  rw [settle_duty, settle_burstCnt]
  refine ⟨?_, Nat.zero_le _⟩
  split_ifs
  · exact h.1
  · exact cruiseDuties_legal p _

/-- A composed primitive ends its burst and takes a row of 42_actuator.md R185, whatever the duties were. -/
theorem callPrimitive_actuatorOk (p : Params) (q : Primitive) (d : Int) {s : State} (h0 : s.burstCnt = 0) :
    (callPrimitive p q d s).actuatorOk p := by
  rw [actuatorOk_iff, callPrimitive_duty, callPrimitive_burstCnt p q d s h0]
  exact ⟨dutyRow_legal p _ (clamp_le p d) q, Nat.zero_le _⟩

theorem actuate_actuatorOk (p : Params) (q : Primitive) (d : Int) (s : State) : (actuate p q d s).actuatorOk p :=
  callPrimitive_actuatorOk p q d (settle_burstCnt p s)

theorem channelCall_actuatorOk {p : Params} (c : ChannelCall) {s : State} (h : s.actuatorOk p) :
    (channelCall p c s).actuatorOk p := by
  have hs := actuatorOk_iff.1 (settle_actuatorOk h)
  rw [channelCall, runWrites_eq, actuatorOk_iff]
  exact ⟨channelWrites_legal p c hs.1, hs.2⟩

theorem applySymbol_actuatorOk {p : Params} (sym : Symbol) {s : State} (h : s.actuatorOk p) :
    (applySymbol p sym s).actuatorOk p := by
  rcases applySymbol_cases p sym s with ⟨-, hr⟩ | ⟨m, -, -, hr⟩ | ⟨-, hr⟩ <;> rw [hr]
  · exact actuatorOk_of_eq (actuate_actuatorOk p (prim s.mstate) p.cruiseDuty s) rfl rfl
  · exact actuatorOk_of_eq (actuate_actuatorOk p (prim m) p.cruiseDuty s) rfl rfl
  · exact actuatorOk_of_eq (settle_actuatorOk h) rfl rfl

theorem receiveByte_actuatorOk {p : Params} (b : Byte) {s : State} (h : s.actuatorOk p) :
    (receiveByte p b s).actuatorOk p := by
  have hcodec (w : Window) (f : Fin 9) : ((settle p s).setCodec w f).actuatorOk p :=
    actuatorOk_of_eq (settle_actuatorOk h) rfl rfl
  rcases receiveByte_cases p b s with ⟨-, hr⟩ | ⟨sym, -, hr⟩ <;> rw [hr]
  · exact hcodec _ _
  · exact applySymbol_actuatorOk sym (hcodec _ _)

theorem reset_actuatorOk (p : Params) : State.reset.actuatorOk p :=
  actuatorOk_iff.2 ⟨dutyRow_legal p p.spinMode (Nat.zero_le p.maxDuty) .stop, Nat.zero_le _⟩

theorem exec_actuatorOk {i : Instr} {s t : State} (h : s.actuatorOk P) (he : exec i s = .next t) :
    t.actuatorOk P := by
  cases execResult_of_exec he with
  | command sym => exact applySymbol_actuatorOk sym h
  | primitive q => exact actuate_actuatorOk P q P.cruiseDuty s
  | reset => exact actuatorOk_of_eq (reset_actuatorOk P) rfl rfl
  | flush => exact actuatorOk_of_eq h rfl rfl
  | byte b => exact receiveByte_actuatorOk b h

/-! ## The cycle level and the step -/

theorem tick_actuatorOk {p : Params} {s : State} (h : s.actuatorOk p) : (tick p s).actuatorOk p := by
  rw [actuatorOk_iff] at h ⊢
  rw [tick_eq]
  refine ⟨?_, (Nat.sub_le _ _).trans h.2⟩
  dsimp only
  split_ifs
  · exact cruiseDuties_legal p _
  · exact h.1

theorem issue_actuatorOk {p : Params} (q : Primitive) {s : State} (h : s.actuatorOk p) :
    (issue p q s).actuatorOk p := by
  rw [actuatorOk_iff] at h ⊢
  rw [issue_eq]
  refine ⟨burstDuties_legal p q, ?_⟩
  cases q with
  | move m => exact Nat.le_refl _
  | stop => exact h.2

theorem actuatorEdge_actuatorOk {p : Params} (pins : Pins) {s : State} (h : s.actuatorOk p) :
    (actuatorEdge p pins s s).actuatorOk p := by
  rcases actuatorEdge_cases p pins s s with ⟨-, hr⟩ | ⟨-, -, hr⟩ | ⟨q, -, -, hr⟩ <;> rw [hr]
  · exact tick_actuatorOk h
  · exact h
  · exact issue_actuatorOk q h

theorem clockCycle_actuatorOk {p : Params} (pins : Pins) {s : State} (h : s.actuatorOk p) :
    (clockCycle p pins s).actuatorOk p := by
  cases hrst : pins.rst with
  | true =>
    rw [clockCycle_rst p pins s hrst]
    exact actuatorOk_of_eq (reset_actuatorOk p) rfl rfl
  | false =>
    rw [clockCycle_eq p pins s hrst]
    exact actuatorOk_of_eq (actuatorEdge_actuatorOk pins h) rfl rfl

theorem stepResult_actuatorOk {s t : State} (h : s.actuatorOk P) (hst : StepResult s t) : t.actuatorOk P := by
  have htaken : (s.setInput s.input.tail).actuatorOk P := actuatorOk_of_eq h rfl rfl
  cases hst with
  | time _ => exact tick_actuatorOk h
  | ignored => exact htaken
  | instr i he => exact exec_actuatorOk htaken he
  | commands syms => exact List.foldlRecOn syms _ htaken fun _ hu sym _ => applySymbol_actuatorOk sym hu
  | unknown c _ _ => exact actuatorOk_of_eq htaken rfl rfl
  | channel c => exact channelCall_actuatorOk c htaken
  | composed q d => exact actuate_actuatorOk P q d _
  | clock pins _ => exact clockCycle_actuatorOk pins htaken

end Sys2Proof.Machine

namespace Sys2Proof.Claims

open Sys2Proof.Machine

/-- Settles O36: the cases of a step (`StepResult`), each of which leaves the duties, takes a row of 42_actuator.md
R185, or writes one channel's pair. -/
theorem actuatorRegistersStayLegal : Obligations.ActuatorRegistersStayLegal := by
  intro s t h hstep
  exact stepResult_actuatorOk h (stepResult_of_step hstep)

/-- Settles O37: the reset duties are the row of `stop()`, and no burst is in progress (`reset_actuatorOk`). -/
theorem actuatorRegistersLegalAtReset : Obligations.ActuatorRegistersLegalAtReset :=
  reset_actuatorOk P

/-- Settles O13: the registers of `State.reset` and the ports of an idle cycle, by computation. -/
theorem resetStateAndPorts : Obligations.ResetStateAndPorts :=
  ⟨rfl, rfl, rfl, rfl, rfl, rfl, rfl, rfl, rfl⟩

end Sys2Proof.Claims
end

section
/-! SUPPORT. Of everything a step can do, only the assertion of an illegal symbol code sets `fault` (10_state.md R26,
41_motion_fsm.md R153). -/

namespace Sys2Proof.Machine

open Sys2Proof.Claims

@[simp] theorem actuate_fault (p : Params) (q : Primitive) (d : Int) (s : State) :
    (actuate p q d s).fault = s.fault := by simp [actuate]

@[simp] theorem channelCall_fault (p : Params) (c : ChannelCall) (s : State) :
    (channelCall p c s).fault = s.fault := by simp [channelCall]

@[simp] theorem tick_fault (p : Params) (s : State) : (tick p s).fault = s.fault := by rw [tick_eq]

theorem exec_fault_false {i : Instr} {s t : State} (h : s.fault = false) (he : exec i s = .next t) :
    t.fault = false := by
  cases execResult_of_exec he with
  | command sym => rwa [applySymbol_fault]
  | primitive q => rwa [actuate_fault]
  | reset => rfl
  | flush => exact h
  | byte b => rwa [receiveByte_fault]

/-- The Codec emits legal codes only, so an illegal one comes from `sym_in` (30_encoding.md R80). -/
theorem pins_of_presented_illegal {pins : Pins} {s : State} {c : Code} (h : presentedCode pins s = some c)
    (hc : symbolOfCode? c = none) : pins = ⟨false, .symIn true c⟩ := by
  obtain ⟨rst, drive⟩ := pins
  cases rst with
  | true => simp [presentedCode] at h
  | false =>
    cases drive with
    | codec valid data flush =>
      obtain ⟨sym, -, rfl⟩ : ∃ sym, _ ∧ Symbol.code sym = c := by simpa [presentedCode] using h
      rw [symbolOfCode?_code] at hc
      cases hc
    | symIn valid code =>
      obtain ⟨rfl, rfl⟩ : valid = true ∧ code = c := by simpa [presentedCode] using h
      rfl
    | actIn valid code => simp [presentedCode] at h

theorem motionEdge_fault_of_legal {pins : Pins} {old s : State}
    (h : ∀ c, presentedCode pins old = some c → legalSymbol c = true) : (motionEdge pins old s).fault = s.fault := by
  unfold motionEdge
  split
  · rfl
  · rename_i c hc
    rw [if_pos (h c hc)]
    split
    · rfl
    · split_ifs <;> rfl

/-- A cycle without `rst` writes `fault` only for an illegal code on `sym_in` (41_motion_fsm.md R153). -/
theorem clockCycle_fault (p : Params) {pins : Pins} (s : State) (hrst : pins.rst = false) :
    (clockCycle p pins s).fault = s.fault ∨ ∃ c, symbolOfCode? c = none ∧ pins = ⟨false, .symIn true c⟩ := by
  rw [clockCycle_eq p pins s hrst]
  by_cases hlegal : ∀ c, presentedCode pins s = some c → legalSymbol c = true
  · exact .inl (motionEdge_fault_of_legal hlegal)
  · push Not at hlegal
    obtain ⟨c, hpres, hc⟩ := hlegal
    have hnone : symbolOfCode? c = none := by simpa [legalSymbol] using hc
    exact .inr ⟨c, hnone, pins_of_presented_illegal hpres hnone⟩

/-- A step that sets `fault` took an illegal symbol code (10_state.md R26, 60_exceptions.md R224). -/
theorem stepResult_fault {s t : State} (h : s.fault = false) (hst : StepResult s t) :
    t.fault = false ∨ ∃ c, symbolOfCode? c = none ∧ ∃ rest,
      s.input = .symbol c :: rest ∨ s.input = .clock ⟨false, .symIn true c⟩ :: rest := by
  cases hst with
  | time _ => exact .inl (by rwa [tick_fault])
  | ignored => exact .inl h
  | instr i he => exact .inl (exec_fault_false (s := s.setInput s.input.tail) h he)
  | commands syms =>
    exact .inl (List.foldlRecOn (motive := fun u : State => u.fault = false) syms _ h
      fun u hu sym _ => by rwa [applySymbol_fault])
  | unknown c hc hin =>
    obtain ⟨rest, hin⟩ := hin
    exact .inr ⟨c, hc, rest, .inl hin⟩
  | channel c => exact .inl (by rwa [channelCall_fault])
  | composed q d => exact .inl (by rwa [actuate_fault])
  | clock pins hin =>
    obtain ⟨rest, hin⟩ := hin
    cases hrst : pins.rst with
    | true =>
      rw [clockCycle_rst P pins _ hrst]
      exact .inl rfl
    | false =>
      rcases clockCycle_fault P (s.setInput s.input.tail) hrst with hf | ⟨c, hc, rfl⟩
      · exact .inl (hf.trans h)
      · exact .inr ⟨c, hc, rest, .inr hin⟩

end Sys2Proof.Machine

namespace Sys2Proof.Claims

open Sys2Proof.Machine

/-- Settles O24: of the cases of a step only the assertion of an illegal code sets `fault` (`stepResult_fault`). -/
theorem faultOnlyFromAnIllegalCode : Obligations.FaultOnlyFromAnIllegalCode := by
  intro s t h hstep ht
  rcases stepResult_fault h (stepResult_of_step hstep) with hf | hcode
  · rw [hf] at ht
    cases ht
  · exact hcode

end Sys2Proof.Claims
end

section
/-! SUPPORT. Single writer (10_state.md R35): what each kind of event leaves to another owner, what the Codec reads in a
clock cycle, and that a run only takes its inputs and only adds to its trace. -/

namespace Sys2Proof.Machine

open Sys2Proof.Claims

/-! ## What a call of the Actuator leaves -/

/-- Everything outside the Actuator's registers and the trace is as before (10_state.md R35). -/
def State.keepsOutsideActuator (s t : State) : Prop :=
  keepsCodecAndFault s t ∧ t.mstate = s.mstate

theorem actuate_keeps (p : Params) (q : Primitive) (d : Int) (s : State) :
    s.keepsOutsideActuator (actuate p q d s) := by
  simp [State.keepsOutsideActuator, keepsCodecAndFault, actuate]

theorem channelCall_keeps (p : Params) (c : ChannelCall) (s : State) :
    s.keepsOutsideActuator (channelCall p c s) := by
  simp [State.keepsOutsideActuator, keepsCodecAndFault, channelCall]

theorem applySymbol_keeps (p : Params) (sym : Symbol) (s : State) : keepsCodecAndFault s (applySymbol p sym s) := by
  simp [keepsCodecAndFault]

/-! ## A byte and a symbol code alone -/

theorem receiveByte_of_not_emitted (p : Params) {b : Byte} {s : State}
    (he : (codecAccept s.window s.fill b).emitted = none) :
    receiveByte p b s = (settle p s).setCodec (s.window.shift b) (codecAccept s.window s.fill b).fill := by
  rcases receiveByte_cases p b s with ⟨-, h⟩ | ⟨sym, hsym, -⟩
  · exact h
  · rw [he] at hsym
    cases hsym

/-- A symbol code presented alone is applied, or raises the assertion (41_motion_fsm.md R153). -/
theorem takeInput_symbol (c : Code) (s : State) :
    (∃ sym, takeInput (.symbol c) s = .next (applySymbol P sym s)) ∨
      takeInput (.symbol c) s = .next (raiseUnknownSymbol c s) := by
  cases hc : symbolOfCode? c with
  | some sym => exact .inl ⟨sym, by simp [takeInput, hc, exec_ofSymbol]⟩
  | none => exact .inr (by simp [takeInput, hc])

theorem step_symbol_keeps_codec {s : State} {c : Code} {rest : List Input} (hin : s.input = .symbol c :: rest) :
    ∃ t, step s = .next t ∧ t.window = s.window ∧ t.fill = s.fill := by
  rw [step_cons s _ rest hin]
  rcases takeInput_symbol c (s.setInput rest) with ⟨sym, h⟩ | h <;> rw [h]
  · exact ⟨_, rfl, by simp, by simp⟩
  · exact ⟨_, rfl, rfl, rfl⟩

/-! ## One clock cycle -/

theorem acceptedByte_of_not_byteCycle {pins : Pins} {s : State} (h : byteCycle pins = false) :
    acceptedByte pins s = none ∧ flushPin pins = false := by
  obtain ⟨rst, drive⟩ := pins
  cases drive with
  | codec valid data flush => cases h
  | symIn valid code => exact ⟨rfl, rfl⟩
  | actIn valid code => exact ⟨rfl, rfl⟩

theorem clockCycle_codec_of_not_byteCycle (p : Params) {pins : Pins} (s : State) (hrst : pins.rst = false)
    (h : byteCycle pins = false) :
    (clockCycle p pins s).window = s.window ∧ (clockCycle p pins s).fill = s.fill := by
  obtain ⟨hacc, hflush⟩ := acceptedByte_of_not_byteCycle (s := s) h
  rw [clockCycle_eq p pins s hrst]
  simp [codecEdge, hacc, hflush]

theorem clockCycle_fault_of_not_symIn (p : Params) {pins : Pins} (s : State) (hrst : pins.rst = false)
    (h : ∀ v x, pins.drive ≠ .symIn v x) : (clockCycle p pins s).fault = s.fault := by
  rcases clockCycle_fault p s hrst with hf | ⟨c, -, rfl⟩
  · exact hf
  · exact absurd rfl (h true c)

theorem clockCycle_mstate_of_actIn (p : Params) {pins : Pins} (s : State) (hrst : pins.rst = false)
    (h : ∃ v x, pins.drive = .actIn v x) : (clockCycle p pins s).mstate = s.mstate := by
  obtain ⟨v, x, hdrive⟩ := h
  have hpres : presentedCode pins s = none := by simp [presentedCode, hdrive]
  rw [clockCycle_eq p pins s hrst]
  simp [motionEdge, hpres]

/-- Of the other owners' registers the Codec reads only whether `burst_cnt` is 0 (10_state.md R32, R35). -/
theorem acceptedByte_congr {pins : Pins} {s t : State} (hn : s.burstCnt = 0 ↔ t.burstCnt = 0) :
    acceptedByte pins s = acceptedByte pins t := by
  ext b
  rw [acceptedByte_eq_some, acceptedByte_eq_some, hn]

theorem codecEdge_congr {pins : Pins} {s t : State} (hw : s.window = t.window) (hf : s.fill = t.fill)
    (hn : s.burstCnt = 0 ↔ t.burstCnt = 0) :
    (codecEdge pins s).window = (codecEdge pins t).window ∧ (codecEdge pins s).fill = (codecEdge pins t).fill := by
  unfold codecEdge
  rw [acceptedByte_congr hn]
  split_ifs
  · exact ⟨hw, rfl⟩
  · cases acceptedByte pins t with
    | none => exact ⟨hw, hf⟩
    | some b => simp [hw, hf]

theorem clockCycle_codec_congr (p : Params) (pins : Pins) {s t : State} (hw : s.window = t.window)
    (hf : s.fill = t.fill) (hn : s.burstCnt = 0 ↔ t.burstCnt = 0) :
    (clockCycle p pins s).window = (clockCycle p pins t).window ∧
      (clockCycle p pins s).fill = (clockCycle p pins t).fill := by
  cases hrst : pins.rst with
  | true =>
    rw [clockCycle_rst p pins s hrst, clockCycle_rst p pins t hrst]
    exact ⟨rfl, rfl⟩
  | false =>
    rw [clockCycle_eq p pins s hrst, clockCycle_eq p pins t hrst]
    exact codecEdge_congr hw hf hn

/-! ## The pending inputs and the trace -/

/-- The pending inputs are left and the trace is only added to (log entries 1 and 2). -/
def State.extendsTrace (s t : State) : Prop :=
  t.input = s.input ∧ ∃ new, t.trace = s.trace ++ new

theorem extendsTrace_trans {s t u : State} (h : s.extendsTrace t) (g : t.extendsTrace u) : s.extendsTrace u := by
  obtain ⟨hi, a, ha⟩ := h
  obtain ⟨gi, b, hb⟩ := g
  exact ⟨gi.trans hi, a ++ b, by rw [hb, ha, List.append_assoc]⟩

theorem extendsTrace_of_trace_eq {s t : State} (hi : t.input = s.input) (ht : t.trace = s.trace) :
    s.extendsTrace t :=
  ⟨hi, [], by rw [ht, List.append_nil]⟩

theorem extendsTrace_refl (s : State) : s.extendsTrace s :=
  extendsTrace_of_trace_eq rfl rfl

theorem extendsTrace_record (s : State) (o : Obs) : s.extendsTrace (s.record o) :=
  ⟨rfl, [o], rfl⟩

theorem settle_extendsTrace (p : Params) (s : State) : s.extendsTrace (settle p s) :=
  ⟨settle_input p s, _, settle_trace p s⟩

theorem callPrimitive_extendsTrace (p : Params) (q : Primitive) (d : Int) (s : State) :
    s.extendsTrace (callPrimitive p q d s) :=
  ⟨callPrimitive_input p q d s, _, callPrimitive_trace p q d s⟩

theorem actuate_extendsTrace (p : Params) (q : Primitive) (d : Int) (s : State) :
    s.extendsTrace (actuate p q d s) :=
  extendsTrace_trans (settle_extendsTrace p s) (callPrimitive_extendsTrace p q d _)

theorem channelCall_extendsTrace (p : Params) (c : ChannelCall) (s : State) : s.extendsTrace (channelCall p c s) :=
  extendsTrace_trans (settle_extendsTrace p s) ⟨runWrites_input _ _, _, runWrites_trace _ _⟩

theorem applySymbol_extendsTrace (p : Params) (sym : Symbol) (s : State) : s.extendsTrace (applySymbol p sym s) := by
  rcases applySymbol_cases p sym s with ⟨-, h⟩ | ⟨m, -, -, h⟩ | ⟨-, h⟩ <;> rw [h]
  · exact extendsTrace_trans (actuate_extendsTrace p _ _ s) (extendsTrace_record _ _)
  · exact extendsTrace_trans (actuate_extendsTrace p _ _ s) (extendsTrace_record (State.setMstate _ m) _)
  · exact extendsTrace_trans (settle_extendsTrace p s) (extendsTrace_record _ _)

theorem receiveByte_extendsTrace (p : Params) (b : Byte) (s : State) : s.extendsTrace (receiveByte p b s) := by
  rcases receiveByte_cases p b s with ⟨-, h⟩ | ⟨sym, -, h⟩ <;> rw [h]
  · exact settle_extendsTrace p s
  · exact extendsTrace_trans (settle_extendsTrace p s) (applySymbol_extendsTrace p sym (State.setCodec _ _ _))

theorem resetBlock_extendsTrace (s : State) : s.extendsTrace (resetBlock s) :=
  ⟨rfl, _, resetBlock_trace s⟩

theorem execResult_extendsTrace {s t : State} (h : ExecResult s t) : s.extendsTrace t := by
  cases h with
  | command sym => exact applySymbol_extendsTrace P sym s
  | primitive q => exact actuate_extendsTrace P q _ s
  | reset => exact resetBlock_extendsTrace s
  | flush => exact extendsTrace_of_trace_eq rfl rfl
  | byte b => exact receiveByte_extendsTrace P b s

theorem tick_extendsTrace (p : Params) (s : State) : s.extendsTrace (tick p s) := by
  rw [tick_eq]
  exact ⟨rfl, _, rfl⟩

theorem clockCycle_extendsTrace (p : Params) (pins : Pins) (s : State) : s.extendsTrace (clockCycle p pins s) := by
  cases hrst : pins.rst with
  | true =>
    rw [clockCycle_rst p pins s hrst]
    exact extendsTrace_trans (extendsTrace_record s _) (resetBlock_extendsTrace _)
  | false =>
    rw [clockCycle_eq p pins s hrst]
    exact ⟨rfl, _, List.append_assoc ..⟩

theorem stepResult_extendsTrace {s t : State} (hst : StepResult s t) :
    (s.setInput s.input.tail).extendsTrace t := by
  cases hst with
  | time h =>
    obtain ⟨hinput, htrace⟩ := tick_extendsTrace P s
    exact ⟨by simp [hinput, h], htrace⟩
  | ignored => exact extendsTrace_refl _
  | instr i he => exact execResult_extendsTrace (execResult_of_exec he)
  | commands syms =>
    exact List.foldlRecOn syms _ (extendsTrace_refl _) fun u hu sym _ =>
      extendsTrace_trans hu (applySymbol_extendsTrace P sym u)
  | unknown c _ _ => exact extendsTrace_record (State.setFault _ true) _
  | channel c => exact channelCall_extendsTrace P c _
  | composed q d => exact actuate_extendsTrace P q d _
  | clock pins _ => exact clockCycle_extendsTrace P pins _

end Sys2Proof.Machine

namespace Sys2Proof.Claims

open Sys2Proof.Machine

/-- Settles O47: each clause is a lemma about the one operation its event runs; the last two go by the results of an
instruction (`ExecResult`) and of a step (`StepResult`). -/
theorem singleWriter : Obligations.SingleWriter := by
  refine ⟨?command, ?primitive, ?flush, ?byte, ?byteWithoutFrame, ?symbol, ?channel, ?composed, ?cycle, ?codecReads,
    ?exec, ?step⟩
  case command =>
    intro sym s
    exact ⟨_, exec_ofSymbol sym s, applySymbol_keeps P sym s⟩
  case primitive =>
    intro q s
    exact ⟨_, exec_ofPrimitive q s, actuate_keeps P q _ s⟩
  case flush => exact exec_flush
  case byte =>
    intro b s
    refine ⟨_, exec_rxbyte b s, receiveByte_fault P b s, ?_, receiveByte_fill P b s⟩
    rw [receiveByte_window, codecAccept_window]
  case byteWithoutFrame =>
    intro b s he
    refine ⟨_, exec_rxbyte b s, ?_⟩
    rw [receiveByte_of_not_emitted P he]
    exact ⟨settle_mstate P s, rfl, rfl⟩
  case symbol =>
    intro s c rest hin
    exact step_symbol_keeps_codec hin
  case channel =>
    intro s c rest hin
    obtain ⟨⟨hw, hf, he, -⟩, hm⟩ := channelCall_keeps P c (s.setInput rest)
    exact ⟨_, step_cons s _ rest hin, hw, hf, hm, he⟩
  case composed =>
    intro s q d rest hin
    obtain ⟨⟨hw, hf, he, -⟩, hm⟩ := actuate_keeps P q d (s.setInput rest)
    exact ⟨_, step_cons s _ rest hin, hw, hf, hm, he⟩
  case cycle =>
    intro pins s hrst
    exact ⟨clockCycle_codec_of_not_byteCycle P s hrst, clockCycle_fault_of_not_symIn P s hrst,
      clockCycle_mstate_of_actIn P s hrst⟩
  case codecReads =>
    intro pins s t hw hf hn
    exact clockCycle_codec_congr P pins hw hf hn
  case exec =>
    intro i s
    obtain ⟨t, ht, hres⟩ := exec_completes i s
    obtain ⟨hinput, new, htrace⟩ := execResult_extendsTrace hres
    exact ⟨t, new, ht, hinput, htrace⟩
  case step =>
    intro s t hstep
    exact stepResult_extendsTrace (stepResult_of_step hstep)

end Sys2Proof.Claims
end

section
/-! SUPPORT. The encodings of 30_encoding.md as laws of the decoder: which words of each interface decode, to what, and
that the encoder's word is one of them (R74, R82, R83, R87). -/

namespace Sys2Proof

open Sys2Proof.Laws.EncodedForm

/-! ## The frame interface -/

theorem validFrame_eq_isSome (f : List Byte) : validFrame f = (frameSymbol? f).isSome := by
  unfold frameSymbol?
  split_ifs with h
  · obtain ⟨-, hcode⟩ := Bool.and_eq_true_iff.1 h
    rw [h, hcode]
  · simpa using h

/-- A sequence is a valid frame exactly when it is the frame of a symbol (R74, R83). -/
theorem validFrame_iff {f : List Byte} : validFrame f = true ↔ ∃ s : Symbol, f = frameOf s := by
  simp only [validFrame_eq_isSome, Option.isSome_iff_exists, frameSymbol?_eq_some]

/-- `CODES`, the six direction codes (R73). -/
theorem exists_dirCode_iff {o : Option Byte} :
    (∃ s : Symbol, o = some s.dirCode) ↔ o = some 0x00#8 ∨ o = some 0x01#8 ∨ o = some 0x02#8 ∨ o = some 0x04#8 ∨
      o = some 0x08#8 ∨ o = some 0x10#8 := by
  constructor
  · rintro ⟨s, rfl⟩
    cases s <;> decide
  · rintro (h | h | h | h | h | h)
    exacts [⟨.rep, h⟩, ⟨.forward, h⟩, ⟨.backward, h⟩, ⟨.left, h⟩, ⟨.right, h⟩, ⟨.stop, h⟩]

theorem isSome_bind_mapDir {o : Option Byte} : (o.bind mapDir).isSome = true ↔ ∃ s : Symbol, o = some s.dirCode := by
  cases o <;> simp [Option.isSome_iff_exists, mapDir_eq_some]

theorem decodeInstr_frame_eq_ok {f : List Byte} {i : Instr} :
    decodeInstr (.frame f) = .ok i ↔ ∃ s, f = frameOf s ∧ i = Instr.ofSymbol s := by
  simp only [← frameSymbol?_eq_some, ← decodeFrame_eq_ok, decodeInstr]
  cases decodeFrame f <;> simp [eq_comm]

theorem encode_ofSymbol (s : Symbol) : encode (Instr.ofSymbol s) = .frame (frameOf s) := by
  cases s <;> rfl

/-! ## The Actuator interface -/

theorem decodeInstr_act_eq_ok {c : Code} {i : Instr} :
    decodeInstr (.act c) = .ok i ↔ ∃ p, c = Primitive.code p ∧ i = Instr.ofPrimitive p := by
  simp only [← primitiveOfCode?_eq_some, decodeInstr]
  cases primitiveOfCode? c <;> simp [eq_comm]

theorem encode_ofPrimitive (p : Primitive) : encode (Instr.ofPrimitive p) = .act p.code := by
  rcases p with m | _
  · cases m <;> rfl
  · rfl

/-! ## The port events -/

/-- The three control bits of a vector, each put back in its place (R87). -/
theorem and_controlBits (e : EventVector) :
    e &&& 0x400#11 = (if e.getLsbD 10 then 0x400#11 else 0#11) ∧
    e &&& 0x600#11 = (if e.getLsbD 10 then 0x400#11 else 0#11) ||| (if e.getLsbD 9 then 0x200#11 else 0#11) ∧
    e &&& 0x700#11 = (if e.getLsbD 10 then 0x400#11 else 0#11) ||| (if e.getLsbD 9 then 0x200#11 else 0#11) |||
      (if e.getLsbD 8 then 0x100#11 else 0#11) := by
  have h10 := BitVec.and_twoPow e 10
  have h9 := BitVec.and_twoPow e 9
  have h8 := BitVec.and_twoPow e 8
  refine ⟨h10, ?_, ?_⟩
  · rw [show 0x600#11 = BitVec.twoPow 11 10 ||| BitVec.twoPow 11 9 by decide, BitVec.and_or_distrib_left, h10, h9]
    rfl
  · rw [show 0x700#11 = BitVec.twoPow 11 10 ||| BitVec.twoPow 11 9 ||| BitVec.twoPow 11 8 by decide,
      BitVec.and_or_distrib_left, BitVec.and_or_distrib_left, h10, h9, h8]
    rfl

/-- The masks of the table are the priority RESET, FLUSH, RXBYTE of the three control bits (R87). -/
theorem decodePort_eq (e : EventVector) :
    decodePort e = if e.getLsbD 10 then .ok .reset else if e.getLsbD 9 then .ok .flush
      else if e.getLsbD 8 then .ok (.rxbyte (e.extractLsb' 0 8)) else .error .noEvent := by
  obtain ⟨h4, h6, h7⟩ := and_controlBits e
  rw [decodePort, h4, h6, h7]
  cases e.getLsbD 10 <;> cases e.getLsbD 9 <;> cases e.getLsbD 8 <;> rfl

theorem extractLsb'_rxEvent (b : Byte) : (rxEvent b).extractLsb' 0 8 = b := by
  ext i hi
  have hbit : 0x100#11 = BitVec.twoPow 11 8 := by decide
  have hlow : i < 11 ∧ i ≠ 8 := by omega
  simp [rxEvent, hbit, hi, hlow]

theorem decodePort_rxEvent (b : Byte) : decodePort (rxEvent b) = .ok (.rxbyte b) := by
  have h10 : (rxEvent b).getLsbD 10 = false := by simp [rxEvent]
  have h9 : (rxEvent b).getLsbD 9 = false := by simp [rxEvent]
  have h8 : (rxEvent b).getLsbD 8 = true := by simp [rxEvent]
  rw [decodePort_eq, h10, h9, h8, extractLsb'_rxEvent]
  rfl

/-! ## Every instruction -/

/-- The encoder's word has its interface's length and is the table's word (R79, R83, R82, R87). -/
theorem encodedForm : ∀ i : Instr, Statement i
  | .repeatHeld => repeatHeld
  | .forward => forward
  | .backward => backward
  | .left => left
  | .right => right
  | .stop => stop
  | .pForward => pForward
  | .pBackward => pBackward
  | .pSpinLeft => pSpinLeft
  | .pSpinRight => pSpinRight
  | .pStop => pStop
  | .reset => reset
  | .flush => flush
  | .rxbyte b => rxbyte b

theorem decodeInstr_encode (i : Instr) : decodeInstr (encode i) = .ok i := by
  rcases Machine.instr_cases i with ⟨s, rfl⟩ | ⟨p, rfl⟩ | rfl | rfl | ⟨b, rfl⟩
  · rw [encode_ofSymbol]
    exact decodeInstr_frame_eq_ok.2 ⟨s, rfl, rfl⟩
  · rw [encode_ofPrimitive]
    exact decodeInstr_act_eq_ok.2 ⟨p, rfl, rfl⟩
  · rfl
  · rfl
  · exact decodePort_rxEvent b

theorem decodeTableWord_eq_some {nbits w : Nat} {i : Instr} :
    decodeTableWord nbits w = some i ↔ ∃ r, rawOfTableWord nbits w = some r ∧ decodeInstr r = .ok i := by
  unfold decodeTableWord
  cases rawOfTableWord nbits w with
  | none => simp
  | some r => cases h : decodeInstr r <;> simp [h]

/-- The table's word of an instruction decodes to it. -/
theorem decodeTableWord_tableWord (i : Instr) : decodeTableWord (tableWord i).1 (tableWord i).2 = some i :=
  decodeTableWord_eq_some.2 ⟨encode i, (encodedForm i).2, decodeInstr_encode i⟩

end Sys2Proof

namespace Sys2Proof.Claims

open Sys2Proof.Machine

/-- Settles O2: the encoder's word decodes by the class of the instruction's interface (`decodeInstr_encode`), and the
frame and Actuator interfaces have one word for each instruction. -/
theorem decodeEncodeAgree : Obligations.DecodeEncodeAgree := by
  refine ⟨fun i _ => ⟨(encodedForm i).1, decodeInstr_encode i⟩, fun f i h => ?_, fun c i h => ?_⟩
  · obtain ⟨s, rfl, rfl⟩ := decodeInstr_frame_eq_ok.1 h
    exact encode_ofSymbol s
  · obtain ⟨p, rfl, rfl⟩ := decodeInstr_act_eq_ok.1 h
    exact encode_ofPrimitive p

/-- Settles O3: a valid frame is the frame of a symbol (`validFrame_iff`), and the conjuncts are those of `validFrame`
with `CODES` written out (`exists_dirCode_iff`). -/
theorem validFramesAreExactlySix : Obligations.ValidFramesAreExactlySix := by
  refine ⟨fun f => ?_, fun f => validFrame_iff, fun s t => frameOf_injective, fun f h => ?_⟩
  · rw [← exists_dirCode_iff, ← isSome_bind_mapDir]
    simp only [validFrame, Bool.and_eq_true, beq_iff_eq, and_assoc, FRAME_LEN, HEADER, TAIL, TAIL_OFF, DIR_OFF]
  · simpa [validFrame_eq_isSome] using h

/-- Settles O1: each row's word is the table's word of its instruction (`decodeTableWord_tableWord`); the last two words
are of no row, by computation. -/
theorem opcodeTableWordsDecode : Obligations.OpcodeTableWordsDecode :=
  ⟨decodeTableWord_tableWord .repeatHeld, decodeTableWord_tableWord .forward, decodeTableWord_tableWord .backward,
    decodeTableWord_tableWord .left, decodeTableWord_tableWord .right, decodeTableWord_tableWord .stop,
    decodeTableWord_tableWord .pForward, decodeTableWord_tableWord .pBackward, decodeTableWord_tableWord .pSpinLeft,
    decodeTableWord_tableWord .pSpinRight, decodeTableWord_tableWord .pStop, decodeTableWord_tableWord .reset,
    decodeTableWord_tableWord .flush, decodeTableWord_tableWord (.rxbyte 0xA5#8), by decide, by decide⟩

/-- Settles O4: the masks of the table test the three control bits in that order (`decodePort_eq`). -/
theorem portEventPriority : Obligations.PortEventPriority :=
  decodePort_eq

end Sys2Proof.Claims
end

section
/-! SUPPORT. A raw word as the next pending input: a step does with it what its decoding says (43_top_loop.md R202; log
entry 13). -/

namespace Sys2Proof.Machine

/-- A snapshot of eight bytes has one candidate, the whole of it (40_frame_codec.md R101). -/
theorem decodeBuffer_of_length_eq_eight {f : List Byte} (h : f.length = 8) :
    decodeBuffer f = (frameSymbol? f).toList := by
  have hfirst : frameAt f 0 = frameSymbol? f := by
    simp [frameAt, memRead, List.take_of_length_le h.le]
  have hlater : (List.range' 1 7).filterMap (frameAt f) = [] :=
    filterMap_range'_none fun k hk _ => Option.eq_none_iff_forall_not_mem.2 fun s hs => by
      have := frameAt_bound hs
      omega
  rw [decodeBuffer_eq_framesIn, framesIn, h, List.range_eq_range', List.range'_succ, ← hfirst]
  cases hf : frameAt f 0 <;> simp [hf, hlater]

theorem poll_frameOf (sym : Symbol) (s : State) : poll (frameOf sym) s = exec (Instr.ofSymbol sym) s := by
  rw [poll, decodeBuffer_of_length_eq_eight (length_frameOf sym), frameSymbol?_frameOf, runCommands_eq, exec_ofSymbol]
  rfl

theorem poll_of_invalid {f : List Byte} (hlen : f.length = 8) (hnone : frameSymbol? f = none) (s : State) :
    poll f s = .next s := by
  rw [poll, decodeBuffer_of_length_eq_eight hlen, hnone]
  rfl

theorem takeInput_of_decodeInstr_ok {r : Raw} {i : Instr} (h : decodeInstr r = .ok i) (s : State) :
    takeInput r.toInput s = exec i s := by
  cases r with
  | frame f =>
    obtain ⟨sym, rfl, rfl⟩ := decodeInstr_frame_eq_ok.1 h
    exact poll_frameOf sym s
  | act c => simp [Raw.toInput, takeInput, h]
  | port e => simp [Raw.toInput, takeInput, h]

theorem takeInput_of_decodeInstr_error {r : Raw} {e : Reject} (hwf : r.wf = true) (h : decodeInstr r = .error e)
    (s : State) : takeInput r.toInput s = .next s := by
  cases r with
  | frame f =>
    have hlen : f.length = 8 := by simpa [Raw.wf] using hwf
    have hnone : frameSymbol? f = none := Option.eq_none_iff_forall_not_mem.2 fun sym hsym => by
      have := decodeInstr_frame_eq_ok.2 ⟨sym, frameSymbol?_eq_some.1 hsym, rfl⟩
      simp [h] at this
    exact poll_of_invalid hlen hnone s
  | act c => simp [Raw.toInput, takeInput, h]
  | port e => simp [Raw.toInput, takeInput, h]

theorem withFetchWord_eq {nbits w : Nat} {r : Raw} (h : rawOfTableWord nbits w = some r) (s : State) :
    s.withFetchWord nbits w = s.setInput (r.toInput :: s.input) := by
  simp [State.withFetchWord, h]

end Sys2Proof.Machine

namespace Sys2Proof.Claims

open Sys2Proof.Machine

/-- Settles O49: a step takes its next input (`step_cons`), which as a raw word is what its decoding says. -/
theorem stepRunsTheDecodedInstruction : Obligations.StepRunsTheDecodedInstruction := by
  refine ⟨fun s r i rest hin hdec => ?_, fun s r e rest hin hwf hdec => ?_, fun s hin => step_nil s hin⟩
  · rw [step_cons s _ rest hin, takeInput_of_decodeInstr_ok hdec, State.setInput]
  · rw [step_cons s _ rest hin, takeInput_of_decodeInstr_error hwf hdec, State.setInput]

/-- Settles O50: the placed word is the next input, and taking it restores the pending inputs of before. -/
theorem fetchWordRunsTheInstruction : Obligations.FetchWordRunsTheInstruction := by
  intro s nbits w i h
  obtain ⟨r, hraw, hdec⟩ := decodeTableWord_eq_some.1 h
  rw [withFetchWord_eq hraw]
  exact stepRunsTheDecodedInstruction.1 _ r i s.input rfl hdec

end Sys2Proof.Claims
end

section
/-! SUPPORT. `decode` of two buffers joined: the frames of the first, the frames that straddle the boundary, and the
frames of the second; and the streaming Codec over snapshots and deliveries (40_frame_codec.md R101 to R113). -/

namespace Sys2Proof.Machine

open Sys2Proof.Claims

/-! ## Frames of a buffer -/

theorem decodeBuffer_frameOf (s : Symbol) : decodeBuffer (frameOf s) = [s] := by
  rw [decodeBuffer_of_length_eq_eight (length_frameOf s), frameSymbol?_frameOf]
  rfl

/-- A scan spends eight bytes on each symbol it emits (40_frame_codec.md R106). -/
theorem scan_length_le (fuel : Nat) (buf : List Byte) (pos : Nat) :
    8 * (scan fuel buf pos).length ≤ buf.length - pos := by
  induction fuel generalizing pos with
  | zero => exact Nat.zero_le _
  | succ fuel ih =>
    unfold scan
    rcases scanArm_cases buf pos with ⟨ha, -⟩ | ⟨ha, -⟩ | ⟨ha | ha, -, -⟩ | ⟨s, ha, hs⟩ <;> rw [ha]
    · exact Nat.zero_le _
    · exact Nat.zero_le _
    · exact (ih (pos + 1)).trans (by omega)
    · exact (ih (pos + 1)).trans (by omega)
    · have hroom := frameAt_bound hs
      have hrest : 8 * (scan fuel buf (pos + 8)).length ≤ buf.length - (pos + 8) := ih (pos + 8)
      simp only [List.length_cons, FRAME_LEN]
      omega

theorem frameAt_eq_none_of_no_room {buf : List Byte} {k : Nat} (h : buf.length < k + 8) : frameAt buf k = none :=
  Option.eq_none_iff_forall_ne_some.2 fun s hs => by
    have := frameAt_bound hs
    omega

theorem range_eq_append_last_seven (n : Nat) :
    List.range n = List.range' 0 (n - 7) ++ List.range' (n - 7) (min n 7) := by
  have hjoin := List.range'_append_1 (s := 0) (m := n - 7) (n := min n 7)
  rw [Nat.zero_add, show n - 7 + min n 7 = n by omega] at hjoin
  rw [hjoin, List.range_eq_range']

/-- The last seven positions of a buffer have no room for a frame. -/
theorem framesIn_eq_of_room (buf : List Byte) :
    framesIn buf = (List.range' 0 (buf.length - 7)).filterMap (frameAt buf) := by
  have hlast : (List.range' (buf.length - 7) (min buf.length 7)).filterMap (frameAt buf) = [] :=
    filterMap_range'_none fun k hk _ => frameAt_eq_none_of_no_room (by omega)
  rw [framesIn, range_eq_append_last_seven, List.filterMap_append, hlast, List.append_nil]

/-! ## Frames of two buffers joined -/

/-- The symbols of the frames of `a ++ b` that begin in `a` and end in `b` (40_frame_codec.md R107). -/
def straddling (a b : List Byte) : List Symbol :=
  (List.range' (a.length - 7) (min a.length 7)).filterMap (frameAt (a ++ b))

theorem frameAt_append_right (a b : List Byte) (k : Nat) : frameAt (a ++ b) (a.length + k) = frameAt b k := by
  rw [frameAt, memRead, List.drop_length_add_append, ← memRead]

theorem framesIn_append (a b : List Byte) : framesIn (a ++ b) = framesIn a ++ straddling a b ++ framesIn b := by
  have hfirst : (List.range' 0 (a.length - 7)).filterMap (frameAt (a ++ b)) = framesIn a := by
    rw [framesIn_eq_of_room]
    refine List.filterMap_congr fun k hk => ?_
    have := List.mem_range'_1.1 hk
    rw [frameAt, memRead_append a b k (by omega)]
  have hsecond : ((List.range b.length).map (a.length + ·)).filterMap (frameAt (a ++ b)) = framesIn b := by
    rw [List.filterMap_map]
    exact List.filterMap_congr fun k _ => frameAt_append_right a b k
  rw [framesIn, List.length_append, List.range_add, range_eq_append_last_seven a.length, List.filterMap_append,
    List.filterMap_append, hfirst, hsecond, straddling]

theorem decodeBuffer_append (a b : List Byte) :
    decodeBuffer (a ++ b) = decodeBuffer a ++ straddling a b ++ decodeBuffer b := by
  simp only [decodeBuffer_eq_framesIn, framesIn_append]

theorem straddling_eq_nil_iff {a b : List Byte} :
    straddling a b = [] ↔ ∀ k, k < a.length → a.length < k + 8 → frameAt (a ++ b) k = none := by
  rw [straddling, List.filterMap_eq_nil_iff]
  refine forall_congr' fun k => ?_
  rw [List.mem_range'_1, ← and_imp]
  exact imp_congr_left (by omega)

/-- With no frame across the boundary, `decode` of two buffers joined is that of the one and then of the other. -/
theorem decodeBuffer_append_of_none {a b : List Byte}
    (h : ∀ k < a.length, a.length < k + 8 → frameAt (a ++ b) k = none) :
    decodeBuffer (a ++ b) = decodeBuffer a ++ decodeBuffer b := by
  rw [decodeBuffer_append, straddling_eq_nil_iff.2 h, List.append_nil]

/-! ## The testable properties (40_frame_codec.md R113) -/

/-- No frame begins in bytes without `LEAD`, whatever follows them. -/
theorem frameAt_noise {noise : List Byte} (hnoise : ∀ x ∈ noise, x ≠ LEAD) (b : List Byte) {k : Nat}
    (hk : k < noise.length) : frameAt (noise ++ b) k = none := by
  refine Option.eq_none_iff_forall_ne_some.2 fun s hs => ?_
  have hlead := frameAt_lead hs
  rw [List.getElem?_append_left hk] at hlead
  exact hnoise LEAD (List.mem_of_getElem? hlead) rfl

theorem decodeBuffer_noise {noise : List Byte} (hnoise : ∀ x ∈ noise, x ≠ LEAD) : decodeBuffer noise = [] := by
  rw [decodeBuffer_eq_framesIn, framesIn, List.filterMap_eq_nil_iff]
  intro k hk
  simpa using frameAt_noise hnoise [] (List.mem_range.1 hk)

theorem decodeBuffer_noise_append {noise : List Byte} (hnoise : ∀ x ∈ noise, x ≠ LEAD) (b : List Byte) :
    decodeBuffer (noise ++ b) = decodeBuffer b := by
  rw [decodeBuffer_append_of_none fun k hk _ => frameAt_noise hnoise b hk, decodeBuffer_noise hnoise, List.nil_append]

theorem frameAt_frameOf_append (s : Symbol) (b : List Byte) : frameAt (frameOf s ++ b) 0 = some s := by
  rw [frameAt, memRead_append _ _ _ (by rw [length_frameOf])]
  exact frameSymbol?_frameOf s

/-- A frame at the beginning leaves the bytes after it a buffer of their own. -/
theorem decodeBuffer_frameOf_append (s : Symbol) (b : List Byte) :
    decodeBuffer (frameOf s ++ b) = s :: decodeBuffer b := by
  have hnone : ∀ k < (frameOf s).length, (frameOf s).length < k + 8 → frameAt (frameOf s ++ b) k = none := by
    rw [length_frameOf]
    intro k hk hroom
    exact frameAt_disjoint (frameAt_frameOf_append s b) (by omega) (by omega)
  rw [decodeBuffer_append_of_none hnone, decodeBuffer_frameOf]
  rfl

/-- No frame runs into the beginning of another: it would hold the other's `LEAD` past its own first byte. -/
theorem decodeBuffer_append_frameOf (a : List Byte) (s : Symbol) :
    decodeBuffer (a ++ frameOf s) = decodeBuffer a ++ [s] := by
  have hnext : frameAt (a ++ frameOf s) a.length = some s := by
    rw [← frameSymbol?_frameOf s]
    exact frameAt_append_right a (frameOf s) 0
  have hnone : ∀ k < a.length, a.length < k + 8 → frameAt (a ++ frameOf s) k = none := by
    refine fun k hk hroom => Option.eq_none_iff_forall_ne_some.2 fun t ht => ?_
    rw [frameAt_disjoint ht hk hroom] at hnext
    cases hnext
  rw [decodeBuffer_append_of_none hnone, decodeBuffer_frameOf]

/-- The frames of two symbols differ at the direction code only (30_encoding.md R71, R72, R83). -/
theorem frameOf_getElem?_fixed (s t : Symbol) {k : Nat} (hk : k ≤ 5 ∨ k = 7) :
    (frameOf s)[k]? = (frameOf t)[k]? := by
  have : k = 0 ∨ k = 1 ∨ k = 2 ∨ k = 3 ∨ k = 4 ∨ k = 5 ∨ k = 7 := by omega
  rcases this with rfl | rfl | rfl | rfl | rfl | rfl | rfl <;> rfl

/-- A frame with one byte of its header or tail changed is no frame. -/
theorem frameSymbol?_set_fixed {s : Symbol} {k : Nat} {v : Byte} (hk : k ≤ 5 ∨ k = 7)
    (hv : (frameOf s)[k]? ≠ some v) :
    frameSymbol? ((frameOf s).set k v) = none := by
  refine Option.eq_none_iff_forall_ne_some.2 fun t ht => ?_
  have hset : ((frameOf s).set k v)[k]? = some v := List.getElem?_set_self (by rw [length_frameOf]; omega)
  rw [frameSymbol?_eq_some.1 ht, ← frameOf_getElem?_fixed s t hk] at hset
  exact hv hset

theorem decodeBuffer_set_fixed {s : Symbol} {k : Nat} {v : Byte} (hk : k ≤ 5 ∨ k = 7)
    (hv : (frameOf s)[k]? ≠ some v) :
    decodeBuffer ((frameOf s).set k v) = [] := by
  rw [decodeBuffer_of_length_eq_eight (by rw [List.length_set, length_frameOf]), frameSymbol?_set_fixed hk hv]
  rfl

theorem poll_completes (b : List Byte) (s : State) : ∃ t, poll b s = .next t :=
  ⟨_, runCommands_eq _ s⟩

/-! ## Two snapshots (40_frame_codec.md R107) -/

theorem pollAll_pair (b1 b2 : List Byte) (s : State) :
    pollAll [b1, b2] s = runCommands (decodeBuffer b1 ++ decodeBuffer b2) s := by
  simp only [pollAll, poll, runCommands_eq, List.foldl_append]

theorem sublist_decodeBuffer_append (a b : List Byte) :
    (decodeBuffer a ++ decodeBuffer b).Sublist (decodeBuffer (a ++ b)) := by
  rw [decodeBuffer_append]
  exact (List.sublist_append_left _ _).append (List.Sublist.refl _)

theorem length_lt_decodeBuffer_append_iff (a b : List Byte) :
    (decodeBuffer a ++ decodeBuffer b).length < (decodeBuffer (a ++ b)).length ↔ straddling a b ≠ [] := by
  rw [decodeBuffer_append, ← List.length_pos_iff_ne_nil]
  simp only [List.length_append]
  omega

theorem straddling_ne_nil_iff {a b : List Byte} : straddling a b ≠ [] ↔
    ∃ k, k < a.length ∧ a.length < k + 8 ∧ validFrame (memRead (a ++ b) k 8) = true := by
  simp only [ne_eq, straddling_eq_nil_iff, validFrame_eq_isSome, Option.isSome_iff_ne_none, not_forall, exists_prop]

/-! ## The streaming Codec (40_frame_codec.md R111) -/

theorem codecFeed_eq_decodeBuffer (w : Window) (buf : List Byte) : (codecFeed w 0 buf).1 = decodeBuffer buf := by
  rw [(codecFeed_spec w buf).1, decodeBuffer_eq_framesIn]

/-- The byte after `pre` emits what the frame that ends with it holds. -/
theorem codecAccept_emitted_after (w : Window) (pre : List Byte) (b : Byte) :
    (codecAccept (codecFeed w 0 pre).2.1 (codecFeed w 0 pre).2.2 b).emitted.toList =
      if 7 ≤ pre.length then (frameAt (pre ++ [b]) (pre.length - 7)).toList else [] := by
  have h := (codecFeed_spec w (pre ++ [b])).1
  rw [codecFeed_append, codecFeed_singleton, framesIn_snoc, (codecFeed_spec w pre).1] at h
  exact List.append_cancel_left h

theorem frameOf_suffix_of_emitted {w : Window} {pre : List Byte} {b : Byte} {s : Symbol}
    (h : (codecAccept (codecFeed w 0 pre).2.1 (codecFeed w 0 pre).2.2 b).emitted = some s) :
    ∃ front, pre ++ [b] = front ++ frameOf s := by
  have hlast := codecAccept_emitted_after w pre b
  rw [h] at hlast
  split_ifs at hlast with hlen
  · have hframe : frameAt (pre ++ [b]) (pre.length - 7) = some s := Option.toList_eq_singleton_iff.1 hlast.symm
    refine ⟨(pre ++ [b]).take (pre.length - 7), ?_⟩
    have hread : memRead (pre ++ [b]) (pre.length - 7) 8 = (pre ++ [b]).drop (pre.length - 7) :=
      List.take_of_length_le (by simp; omega)
    rw [← frameSymbol?_eq_some.1 hframe, hread, List.take_append_drop]
  · cases hlast

theorem feedSnapshots_eq (bs : List (List Byte)) (w : Window) : feedSnapshots w bs = bs.flatMap decodeBuffer := by
  induction bs generalizing w with
  | nil => rfl
  | cons b bs ih => rw [feedSnapshots, ih, codecFeed_eq_decodeBuffer, List.flatMap_cons]

theorem feedDeliveries_eq (bs : List (List Byte)) (w : Window) (f : Fin 9) :
    feedDeliveries w f bs = (codecFeed w f bs.flatten).1 := by
  induction bs generalizing w f with
  | nil => rfl
  | cons b bs ih => rw [feedDeliveries, ih, List.flatten_cons, codecFeed_append]

end Sys2Proof.Machine

namespace Sys2Proof.Claims

open Sys2Proof.Machine

/-- Settles O5: `decodeBuffer_eq_framesIn`, and eight bytes to a symbol by induction on the scan (`scan_length_le`). -/
theorem decodeEmitsTheValidFrames : Obligations.DecodeEmitsTheValidFrames := by
  intro buf
  exact ⟨decodeBuffer_eq_framesIn buf, scan_length_le buf.length buf 0⟩

/-- Settles O6: P3 to P5 are the one case of `decodeBuffer_append` in which no frame straddles the boundary. -/
theorem codecTestableProperties : Obligations.CodecTestableProperties := by
  refine ⟨poll_completes, decodeBuffer_frameOf, fun n b hn => decodeBuffer_noise_append hn b, ?_,
    decodeBuffer_frameOf_append⟩
  intro s s2 k v hk hv
  rw [decodeBuffer_append_frameOf, decodeBuffer_set_fixed hk hv, List.nil_append]

/-- Settles O7: the joined bytes hold the frames of each snapshot and those that straddle (`decodeBuffer_append`). -/
theorem snapshotsLoseOnlyStraddlingFrames : Obligations.SnapshotsLoseOnlyStraddlingFrames := by
  intro b1 b2
  exact ⟨pollAll_pair b1 b2, sublist_decodeBuffer_append b1 b2,
    (length_lt_decodeBuffer_append_iff b1 b2).trans straddling_ne_nil_iff⟩

/-- Settles O8: `codecFeed_spec` of one buffer; FLUSH puts the Codec back at `fill` = 0, and without it deliveries are
one feed of the joined bytes. -/
theorem streamingEqualsDecode : Obligations.StreamingEqualsDecode := by
  refine ⟨fun buf w => codecFeed_eq_decodeBuffer w buf, fun pre b w s h => frameOf_suffix_of_emitted h,
    feedSnapshots_eq, fun bs w => ?_⟩
  rw [feedDeliveries_eq, codecFeed_eq_decodeBuffer]

end Sys2Proof.Claims
end

section
/-! SUPPORT. The Codec's port events in a state and in a clock cycle: which byte completes a frame, and FLUSH
(40_frame_codec.md R108, R109, R112). -/

namespace Sys2Proof.Machine

open Sys2Proof.Claims

/-! ## The byte that completes a frame (40_frame_codec.md R108) -/

/-- A byte emits a symbol exactly when it fills the window and the shifted window is the symbol's frame. -/
theorem codecAccept_emitted_eq_some {w : Window} {f : Fin 9} {b : Byte} {s : Symbol} :
    (codecAccept w f b).emitted = some s ↔ 7 ≤ f.val ∧ (w.shift b).toList = frameOf s := by
  rw [← frameSymbol?_eq_some]
  rcases codecAccept_cases w f b with ⟨hf, -, he⟩ | ⟨-, hs, -, he⟩ | ⟨t, hf, hs, -, he⟩
  · simp [he, hf]
  · simp [he, hs]
  · simp [he, hs, hf]

theorem codecAccept_fill_of_not_emitted {w : Window} {f : Fin 9} {b : Byte} (he : (codecAccept w f b).emitted = none) :
    (codecAccept w f b).fill.val = min (f.val + 1) 8 := by
  have hf8 := f.isLt
  rcases codecAccept_cases w f b with ⟨hf, hfill, -⟩ | ⟨hf, -, hfill, -⟩ | ⟨t, -, -, -, hsome⟩
  · omega
  · omega
  · rw [he] at hsome
    cases hsome

theorem codecAccept_not_emitted {w : Window} {f : Fin 9} {b : Byte}
    (h : f.val < 7 ∨ ∀ sym : Symbol, (w.shift b).toList ≠ frameOf sym) : (codecAccept w f b).emitted = none := by
  refine Option.eq_none_iff_forall_ne_some.2 fun s hs => ?_
  obtain ⟨hf, hframe⟩ := codecAccept_emitted_eq_some.1 hs
  rcases h with hlt | hnot
  · omega
  · exact hnot s hframe

theorem receiveByte_of_emitted (p : Params) {b : Byte} {s : State} {sym : Symbol}
    (he : (codecAccept s.window s.fill b).emitted = some sym) :
    receiveByte p b s = applySymbol p sym ((settle p s).setCodec (s.window.shift b) 0) := by
  rcases receiveByte_cases p b s with ⟨hnone, -⟩ | ⟨t, ht, h⟩
  · rw [he] at hnone
    cases hnone
  · rw [he] at ht
    cases ht
    exact h

/-! ## The symbol output of a cycle (40_frame_codec.md R112) -/

theorem emittedSymbol_eq_some {pins : Pins} {s : State} {y : Symbol} :
    emittedSymbol pins s = some y ↔ ∃ d, pins = ⟨false, .codec true d false⟩ ∧ s.burstCnt = 0 ∧ 7 ≤ s.fill.val ∧
      (s.window.shift d).toList = frameOf y := by
  have hbind : emittedSymbol pins s = (acceptedByte pins s).bind fun d => (codecAccept s.window s.fill d).emitted := by
    unfold emittedSymbol
    cases acceptedByte pins s <;> rfl
  simp only [hbind, Option.bind_eq_some_iff, acceptedByte_eq_some, codecAccept_emitted_eq_some, and_assoc]

theorem outputs_sym (pins : Pins) (s : State) : (outputs pins s).sym = (emittedSymbol pins s).map Symbol.code := by
  cases hrst : pins.rst with
  | false => simp [outputs, hrst]
  | true =>
    have hnone : emittedSymbol pins s = none := Option.eq_none_iff_forall_ne_some.2 fun y hy => by
      obtain ⟨d, rfl, -⟩ := emittedSymbol_eq_some.1 hy
      cases hrst
    simp [outputs, hnone]

/-- The symbol code is the low five bits of the direction code (30_encoding.md R73, R80). -/
theorem code_eq_extractLsb'_dirCode (y : Symbol) : y.code = y.dirCode.extractLsb' 0 5 := by
  cases y <;> rfl

theorem code_of_shift_eq_frameOf {w : Window} {d : Byte} {y : Symbol} (h : (w.shift d).toList = frameOf y) :
    y.code = w.w7.extractLsb' 0 5 := by
  have hdir : w.w7 = y.dirCode := Option.some.inj (congrArg (·[6]?) h)
  rw [hdir, code_eq_extractLsb'_dirCode]

/-! ## FLUSH (40_frame_codec.md R109) -/

/-- Where no symbol is emitted the state machine is given nothing, and drives no strobe. -/
theorem outputs_of_not_emitted {pins : Pins} {s : State} (hbyte : byteCycle pins = true) (hrst : pins.rst = false)
    (he : emittedSymbol pins s = none) :
    (outputs pins s).sym = none ∧ (outputs pins s).changed = false ∧ (outputs pins s).actCmd = none := by
  have hacted : actedCode pins s = none := by simp [actedCode, presentedCode_of_byteCycle hbyte hrst, he]
  refine ⟨?_, ?_, ?_⟩
  · rw [outputs_sym, he]
    rfl
  · simp [outputs, hacted]
  · simp [outputs, commandCode_of_byteCycle hbyte hrst, hacted]

theorem acceptedByte_of_flush {pins : Pins} (hflush : flushPin pins = true) (s : State) :
    acceptedByte pins s = none :=
  Option.eq_none_iff_forall_ne_some.2 fun d hd => by
    obtain ⟨rfl, -⟩ := acceptedByte_eq_some.1 hd
    cases hflush

theorem outputs_rxReady_of_flush {pins : Pins} (hflush : flushPin pins = true) (s : State) :
    (outputs pins s).rxReady = false := by
  simp [outputs, rxReady, hflush]

end Sys2Proof.Machine

namespace Sys2Proof.Claims

open Sys2Proof.Machine

/-- Settles O10: `receiveByte` by whether the byte emits a symbol, which is `codecAccept_emitted_eq_some`. -/
theorem rxbyteResult : Obligations.RxbyteResult := by
  intro s b h0
  have hidle := settle_of_idle P s h0
  refine ⟨fun sym hfill hframe => ?_, fun hno => ?_⟩
  · have hstep : exec (.rxbyte b) s = .next (applySymbol P sym (s.setCodec (s.window.shift b) 0)) := by
      rw [exec_rxbyte, receiveByte_of_emitted P (codecAccept_emitted_eq_some.2 ⟨hfill, hframe⟩), hidle]
    exact ⟨hstep.trans (exec_ofSymbol sym _).symm, _, hstep, applySymbol_fill P sym _⟩
  · have he := codecAccept_not_emitted hno
    refine ⟨_, exec_rxbyte b s, ?_⟩
    rw [receiveByte_of_not_emitted P he, hidle]
    exact ⟨codecAccept_fill_of_not_emitted he, rfl, rfl, rfl, rfl, rfl, rfl, rfl, rfl⟩

/-- Settles O51: the port is the code of the symbol the accepted byte emits (`outputs_sym`, `emittedSymbol_eq_some`),
and the state machine is given it on the byte interface. -/
theorem symbolPort : Obligations.SymbolPort := by
  refine ⟨fun pins s c => ?_, fun pins s => ?_⟩
  · rw [outputs_sym, Option.map_eq_some_iff]
    constructor
    · rintro ⟨y, hy, rfl⟩
      obtain ⟨d, hpins, h0, hfill, hframe⟩ := emittedSymbol_eq_some.1 hy
      exact ⟨d, y, hpins, h0, hfill, hframe, rfl, code_of_shift_eq_frameOf hframe⟩
    · rintro ⟨d, y, hpins, h0, hfill, hframe, rfl, -⟩
      exact ⟨y, emittedSymbol_eq_some.2 ⟨d, hpins, h0, hfill, hframe⟩, rfl⟩
  · obtain ⟨rst, drive⟩ := pins
    cases rst with
    | true => rfl
    | false => cases drive <;> rfl

/-- Settles O11: FLUSH writes `fill` only, and its cycle accepts no byte (`clockCycle_of_no_byte`). -/
theorem flushResult : Obligations.FlushResult := by
  refine ⟨exec_flush, fun s t h => ?_, fun s v d => ?_⟩
  · cases h
    rfl
  · have hacc : acceptedByte ⟨false, .codec v d true⟩ s = none := acceptedByte_of_flush rfl s
    have he : emittedSymbol ⟨false, .codec v d true⟩ s = none := by simp [emittedSymbol, hacc]
    obtain ⟨hsym, hchanged, hcmd⟩ := outputs_of_not_emitted rfl rfl he
    exact ⟨hacc, outputs_rxReady_of_flush rfl s, hsym, hchanged, hcmd, clockCycle_of_no_byte P rfl rfl hacc⟩

end Sys2Proof.Claims
end

section
/-! SUPPORT. `apply` by the table of 41_motion_fsm.md R150: its cell says the state it holds, what it calls and what it
returns, in every state (41_motion_fsm.md R143 to R154). -/

namespace Sys2Proof.Machine

open Sys2Proof.Claims

/-! ## The table of R150 -/

theorem target_symbolFor (m : Movement) : target (symbolFor m) = some m := by cases m <;> rfl

/-- Every cell of the table re-asserts the held state, changes to another, or is debounced (R143, R149). -/
theorem cell_cases (held : Movement) (sym : Symbol) :
    (sym = .rep ∧ cell held sym = (held, some (prim held), false)) ∨
    (∃ m, target sym = some m ∧ m ≠ held ∧ cell held sym = (m, some (prim m), true)) ∨
    (target sym = some held ∧ cell held sym = (held, none, false)) := by
  cases ht : target sym with
  | none =>
    obtain rfl : sym = .rep := by
      cases sym with
      | rep => rfl
      | _ => cases ht
    exact .inl ⟨rfl, cell_rep held⟩
  | some m =>
    by_cases hm : m = held
    · subst hm
      exact .inr (.inr ⟨rfl, cell_of_held ht⟩)
    · exact .inr (.inl ⟨m, rfl, hm, cell_of_change ht hm⟩)

/-- A call is of the primitive of the state held after it (R151). -/
theorem cell_call_eq_prim {held : Movement} {sym : Symbol} {q : Primitive} (h : (cell held sym).2.1 = some q) :
    q = prim (cell held sym).1 := by
  rcases cell_cases held sym with ⟨-, hc⟩ | ⟨m, -, -, hc⟩ | ⟨-, hc⟩ <;> rw [hc] at h ⊢ <;> cases h <;> rfl

/-- The count of R152, one cell at a time. -/
theorem callCount_cons (held : Movement) (sym : Symbol) (rest : List Symbol) :
    callCount held (sym :: rest) = (cell held sym).2.1.toList.length + callCount (cell held sym).1 rest := by
  rcases cell_cases held sym with ⟨rfl, hc⟩ | ⟨m, ht, hm, hc⟩ | ⟨ht, hc⟩ <;> rw [hc]
  · rfl
  · simp [callCount, ht, hm]
  · simp [callCount, ht]

/-! ## `apply` is its cell -/

/-- What `apply` calls, holds and returns is its cell of R150, after a burst in progress (log entry 4). -/
theorem applySymbol_eq_cell (p : Params) (sym : Symbol) (s : State) :
    applySymbol p sym s =
      (((cell s.mstate sym).2.1.elim (settle p s) (callPrimitive p · p.cruiseDuty (settle p s))).setMstate
        (cell s.mstate sym).1).record (.applied sym (cell s.mstate sym).2.2) := by
  rcases applySymbol_cases p sym s with ⟨rfl, h⟩ | ⟨m, ht, hm, h⟩ | ⟨ht, h⟩
  · rw [h, cell_rep]
    ext <;> simp
  · rw [h, cell_of_change ht hm]
    rfl
  · rw [h, cell_of_held ht]
    ext <;> simp

/-- What one `apply` shows: the rest of a burst in progress, the call of its cell, and the value it returns. -/
def applyObs (p : Params) (sym : Symbol) (s : State) : List Obs :=
  settleObs p s ++ (cell s.mstate sym).2.1.elim [] (callObs p · p.cruiseDuty) ++
    [.applied sym (cell s.mstate sym).2.2]

theorem applySymbol_trace (p : Params) (sym : Symbol) (s : State) :
    (applySymbol p sym s).trace = s.trace ++ applyObs p sym s := by
  rw [applySymbol_eq_cell, applyObs]
  cases (cell s.mstate sym).2.1 <;> simp

theorem applySymbol_mstate_cell (p : Params) (sym : Symbol) (s : State) :
    (applySymbol p sym s).mstate = (cell s.mstate sym).1 := by
  rw [applySymbol_eq_cell]
  rfl

@[simp] theorem calls_applyObs (p : Params) (sym : Symbol) (s : State) :
    calls (applyObs p sym s) = (cell s.mstate sym).2.1.toList := by
  unfold applyObs
  cases (cell s.mstate sym).2.1 <;> simp

@[simp] theorem returned_applyObs (p : Params) (sym : Symbol) (s : State) :
    returned (applyObs p sym s) = [(sym, (cell s.mstate sym).2.2)] := by
  unfold applyObs
  cases (cell s.mstate sym).2.1 <;> simp

theorem callPrimitive_burstCmd_after (p : Params) (q : Primitive) (d : Int) (s : State) :
    (callPrimitive p q d s).burstCmd = burstCmdAfter q s.burstCmd := by
  rw [callPrimitive_burstCmd]
  cases q <;> rfl

/-- A cell that calls a primitive: everything its `apply` leaves and shows, with no burst in progress. -/
theorem applySymbol_of_call (p : Params) {sym : Symbol} {s : State} {m : Movement} {b : Bool} (h0 : s.burstCnt = 0)
    (hcell : cell s.mstate sym = (m, some (prim m), b)) :
    (applySymbol p sym s).mstate = m ∧ (applySymbol p sym s).duty = cruiseDuties p (prim m) ∧
      (applySymbol p sym s).trace = s.trace ++ callObs p (prim m) p.cruiseDuty ++ [.applied sym b] ∧
      (applySymbol p sym s).burstCnt = 0 ∧ (applySymbol p sym s).burstCmd = burstCmdAfter (prim m) s.burstCmd ∧
      keepsCodecAndFault s (applySymbol p sym s) := by
  have heq : applySymbol p sym s =
      ((callPrimitive p (prim m) p.cruiseDuty s).setMstate m).record (.applied sym b) := by
    rw [applySymbol_eq_cell, hcell, settle_of_idle p s h0]
    rfl
  refine ⟨?_, ?_, ?_, applySymbol_burstCnt p sym s, ?_, applySymbol_keeps p sym s⟩ <;> rw [heq]
  · rfl
  · exact callPrimitive_duty p _ _ s
  · simp
  · exact callPrimitive_burstCmd_after p _ _ s

/-- A debounced cell: `apply` only shows the value it returns. -/
theorem applySymbol_of_held (p : Params) {sym : Symbol} {s : State} (h0 : s.burstCnt = 0)
    (ht : target sym = some s.mstate) : applySymbol p sym s = s.record (.applied sym false) := by
  rw [applySymbol_eq_cell, cell_of_held ht, settle_of_idle p s h0]
  rfl

/-! ## Commands, sequences and steps -/

theorem exec_commandFor (m : Movement) (s : State) :
    exec (commandFor m) s = .next (applySymbol P (symbolFor m) s) := by
  cases m <;> rfl

/-- The law of R152, and that each symbol is shown once in order. -/
theorem foldl_applySymbol_shows (p : Params) (syms : List Symbol) (s : State) : ∃ new,
    (syms.foldl (fun u sym => applySymbol p sym u) s).trace = s.trace ++ new ∧
      (calls new).length = callCount s.mstate syms ∧ (returned new).map Prod.fst = syms := by
  induction syms generalizing s with
  | nil => exact ⟨[], by simp, rfl, rfl⟩
  | cons sym rest ih =>
    obtain ⟨new, htrace, hcalls, hsyms⟩ := ih (applySymbol p sym s)
    refine ⟨applyObs p sym s ++ new, ?_, ?_, ?_⟩
    · rw [List.foldl_cons, htrace, applySymbol_trace, List.append_assoc]
    · rw [calls_append, List.length_append, calls_applyObs, hcalls, applySymbol_mstate_cell, callCount_cons]
    · simp [hsyms]

/-- Taking an input always answers a next state (R141). -/
theorem takeInput_completes (i : Input) (s : State) : ∃ t, takeInput i s = .next t := by
  rcases takeInput_cases i s with h | ⟨instr, h⟩ | ⟨syms, h⟩ | ⟨c, -, -, h⟩ | ⟨c, -, h⟩ | ⟨q, d, -, h⟩ |
    ⟨pins, -, h⟩ <;> rw [h]
  · exact ⟨_, rfl⟩
  · obtain ⟨t, ht, -⟩ := exec_completes instr s
    exact ⟨t, ht⟩
  · exact ⟨_, runCommands_eq syms s⟩
  all_goals exact ⟨_, rfl⟩

theorem step_completes (s : State) : ∃ t, step s = .next t := by
  cases hin : s.input with
  | nil => exact ⟨_, step_nil s hin⟩
  | cons i rest =>
    rw [step_cons s i rest hin]
    exact takeInput_completes i _

end Sys2Proof.Machine

namespace Sys2Proof.Claims

open Sys2Proof.Machine

/-- Settles O14: the cell of a change calls the primitive of the asked state (`applySymbol_of_call`). -/
theorem moveCommandsOnAChange : Obligations.MoveCommandsOnAChange := by
  intro m s h0 hm
  exact ⟨_, exec_commandFor m s, applySymbol_of_call P h0 (cell_of_change (target_symbolFor m) hm.symm)⟩

/-- Settles O16: the cell of Repeat calls the primitive of the held state (`applySymbol_of_call`). -/
theorem repeatReassertsTheHeldState : Obligations.RepeatReassertsTheHeldState := by
  intro s h0
  exact ⟨_, exec_ofSymbol .rep s, applySymbol_of_call P h0 (cell_rep s.mstate)⟩

/-- Settles O17: `apply` is its cell (`applySymbol_eq_cell`), and the cells are counted. -/
theorem transitionTable : Obligations.TransitionTable := by
  refine ⟨fun sym s => ?_, by decide, by decide⟩
  refine ⟨_, _, exec_ofSymbol sym s, applySymbol_trace P sym s, applySymbol_mstate_cell P sym s,
    calls_applyObs P sym s, returned_applyObs P sym s, fun q hq => ?_⟩
  rw [calls_applyObs, Option.mem_toList] at hq
  rw [applySymbol_mstate_cell, cell_call_eq_prim hq]

/-- Settles O18: each kind of cell (`cell_cases`) either calls the primitive of its new state or leaves the state. -/
theorem mealyMachine : Obligations.MealyMachine := by
  intro sym s
  refine ⟨_, _, exec_ofSymbol sym s, applySymbol_trace P sym s, ?_⟩
  rw [applySymbol_mstate_cell, calls_applyObs]
  rcases cell_cases s.mstate sym with ⟨hrep, hc⟩ | ⟨m, ht, hm, hc⟩ | ⟨ht, hc⟩ <;> rw [hc]
  · exact ⟨fun h => absurd rfl h, fun _ _ => hrep, fun _ => ⟨rfl, rfl⟩⟩
  · refine ⟨fun _ => rfl, fun _ h => absurd h hm, ?_⟩
    rintro rfl
    cases ht
  · refine ⟨fun h => absurd rfl h, fun h => absurd rfl h, ?_⟩
    rintro rfl
    cases ht

/-- Settles O15: the cell of a debounced command writes and calls nothing (`applySymbol_of_held`). -/
theorem moveCommandsDebounced : Obligations.MoveCommandsDebounced := by
  intro m s h0 hm
  have ht : target (symbolFor m) = some s.mstate := by rw [hm, target_symbolFor]
  rw [exec_commandFor, applySymbol_of_held P h0 ht]
  rfl

/-- Settles O19: the count adds up cell by cell (`foldl_applySymbol_shows`); a command that was just executed is
debounced. -/
theorem actuatorCallCount : Obligations.ActuatorCallCount := by
  refine ⟨fun syms s => ?_, fun m s => ?_⟩
  · obtain ⟨new, hnew⟩ := foldl_applySymbol_shows P syms s
    exact ⟨_, new, runCommands_eq syms s, hnew⟩
  · have hm : (applySymbol P (symbolFor m) s).mstate = m := by simp [applySymbol_mstate, target_symbolFor]
    exact ⟨_, _, [.applied (symbolFor m) false], exec_commandFor m s,
      moveCommandsDebounced m _ (applySymbol_burstCnt P _ s) hm, rfl, rfl, sameRegisters_refl _⟩

/-- Settles O20: a command's target is the state after it, and each case of a step answers a next state. -/
theorem everyStateReachableAndNoHalt : Obligations.EveryStateReachableAndNoHalt := by
  refine ⟨rfl, fun m s => ⟨_, exec_commandFor m s, ?_⟩, step_completes⟩
  rw [applySymbol_mstate, target_symbolFor]
  rfl

end Sys2Proof.Claims
end

section
/-! SUPPORT. The state machine in one clock cycle: what it does with the code presented to it, legal or not, and what it
leaves when it acts on none (41_motion_fsm.md R153, R155). -/

namespace Sys2Proof.Machine

open Sys2Proof.Claims

/-! ## Codes -/

theorem movement_code_ne_zero (m : Movement) : m.code ≠ 0b00000#5 := by cases m <;> decide

theorem movement_code_injective {m n : Movement} (h : m.code = n.code) : m = n := by
  have hm := movementOfCode?_code m
  rw [h, movementOfCode?_code] at hm
  exact (Option.some.inj hm).symm

theorem symbolOfCode?_eq_none {c : Code} (h : ∀ sym : Symbol, c ≠ sym.code) : symbolOfCode? c = none :=
  Option.eq_none_iff_forall_ne_some.2 fun sym hsym => h sym (symbolOfCode?_eq_some.1 hsym)

/-- The code of the state a cell holds, from the codes alone (R155). -/
theorem cell_code (held : Movement) (sym : Symbol) :
    (cell held sym).1.code =
      if sym.code ≠ 0b00000#5 ∧ sym.code ≠ held.code then sym.code else held.code := by
  rcases cell_cases held sym with ⟨rfl, hc⟩ | ⟨m, ht, hm, hc⟩ | ⟨ht, hc⟩ <;> rw [hc]
  · rw [if_neg fun h => h.1 rfl]
  · rw [target_eq_some ht, if_pos ⟨movement_code_ne_zero m, fun h => hm (movement_code_injective h)⟩]
  · rw [target_eq_some ht, if_neg fun h => h.2 rfl]

/-! ## A cycle in which the state machine acts on a code -/

/-- Unless `act_cmd` is driven from outside, the Actuator is given the state machine's command (log entry 21). -/
theorem commandCode_of_not_actIn {pins : Pins} {s : State} (hrst : pins.rst = false)
    (hdrive : ∀ v x, pins.drive ≠ .actIn v x) :
    commandCode pins s = (actedCode pins s).bind fun c =>
      if actValidFlag s.mstate.code c then some (actCmdOf s.mstate.code c) else none := by
  obtain ⟨rst, drive⟩ := pins
  cases drive with
  | codec valid data flush => exact commandCode_of_byteCycle rfl hrst
  | symIn valid code =>
    simp only [commandCode, show rst = false from hrst]
    cases actedCode ⟨false, .symIn valid code⟩ s <;> rfl
  | actIn valid code => exact absurd rfl (hdrive valid code)

theorem drive_ne_actIn_of_presented {pins : Pins} {s : State} {c : Code} (hpres : presentedCode pins s = some c)
    (v : Bool) (x : Code) : pins.drive ≠ .actIn v x := by
  intro h
  simp [presentedCode, h] at hpres

theorem actedCode_of_legal {pins : Pins} {s : State} {sym : Symbol} (hpres : presentedCode pins s = some sym.code)
    (h0 : s.burstCnt = 0) : actedCode pins s = some sym.code := by
  simp [actedCode, hpres, legalSymbol, busy, h0]

/-- A legal code presented with no burst in progress takes `mstate` to the state of its cell. -/
theorem motionEdge_mstate_of_legal {pins : Pins} {s : State} {sym : Symbol}
    (hpres : presentedCode pins s = some sym.code) (h0 : s.burstCnt = 0) :
    (motionEdge pins s s).mstate = (cell s.mstate sym).1 := by
  rw [← nextMovement_eq_cell]
  simp only [motionEdge, hpres, actedCode_of_legal hpres h0, legalSymbol, symbolOfCode?_code, Option.isSome_some,
    if_true]
  split_ifs <;> rfl

/-! ## A cycle in which it acts on none -/

/-- Nothing presented, a burst in progress, or an illegal code: the state machine acts on no code (R155). -/
theorem actedCode_eq_none {pins : Pins} {s : State}
    (h : presentedCode pins s = none ∨ s.burstCnt ≠ 0 ∨ ∃ c, presentedCode pins s = some c ∧ symbolOfCode? c = none) :
    actedCode pins s = none := by
  rcases h with hpres | hbusy | ⟨c, hpres, hc⟩
  · simp [actedCode, hpres]
  · cases hpres : presentedCode pins s <;> simp [actedCode, hpres, busy, hbusy]
  · simp [actedCode, hpres, legalSymbol, hc]

theorem outputs_of_not_acted {pins : Pins} {s : State} (hrst : pins.rst = false) (hacted : actedCode pins s = none) :
    (outputs pins s).changed = false ∧ ((∀ v x, pins.drive ≠ .actIn v x) → (outputs pins s).actCmd = none) := by
  refine ⟨by simp [outputs, hacted], fun hdrive => ?_⟩
  simp [outputs, commandCode_of_not_actIn hrst hdrive, hacted]

theorem motionEdge_mstate_of_not_acted {pins : Pins} {s : State} (hacted : actedCode pins s = none) :
    (motionEdge pins s s).mstate = s.mstate := by
  unfold motionEdge
  split
  · rfl
  · split_ifs
    · rw [hacted]
    · rfl

/-! ## An illegal code on `sym_in` (R153) -/

theorem actuatorEdge_of_no_command (p : Params) {pins : Pins} {s : State} (hcmd : commandCode pins s = none) :
    actuatorEdge p pins s s = tick p s := by
  rcases actuatorEdge_cases p pins s s with ⟨-, h⟩ | ⟨h0, -, h⟩ | ⟨prim, -, h, -⟩
  · exact h
  · rw [h, tick, if_pos h0]
  · rw [hcmd] at h
    cases h

/-- An illegal code sets `fault`, drives no strobe and otherwise lets the cycle pass. -/
theorem clockCycle_of_illegal (p : Params) {c : Code} (s : State) (hc : symbolOfCode? c = none) :
    sameRegisters (clockCycle p ⟨false, .symIn true c⟩ s) { tick p s with fault := true } ∧
      (outputs ⟨false, .symIn true c⟩ s).changed = false ∧ (outputs ⟨false, .symIn true c⟩ s).actCmd = none := by
  have hpres : presentedCode ⟨false, .symIn true c⟩ s = some c := rfl
  obtain ⟨hchanged, hstrobe⟩ := outputs_of_not_acted (pins := ⟨false, .symIn true c⟩) rfl
    (actedCode_eq_none (.inr (.inr ⟨c, hpres, hc⟩)))
  have hcmd : commandCode ⟨false, .symIn true c⟩ s = none := hstrobe (drive_ne_actIn_of_presented hpres)
  have hmotion : motionEdge ⟨false, .symIn true c⟩ s s = s.setFault true := by
    simp [motionEdge, hpres, legalSymbol, hc]
  have hcodec : codecEdge ⟨false, .symIn true c⟩ s = s := rfl
  refine ⟨?_, hchanged, hcmd⟩
  rw [clockCycle_eq p _ s rfl, hmotion, hcodec, actuatorEdge_of_no_command p hcmd]
  simp [sameRegisters, tick_eq]

end Sys2Proof.Machine

namespace Sys2Proof.Claims

open Sys2Proof.Machine

/-- Settles O38: a legal code is acted on by its cell's equations in the codes (`cell_code`), and in every other cycle
no code is acted on (`actedCode_eq_none`). -/
theorem cycleLevelMotion : Obligations.CycleLevelMotion := by
  refine ⟨fun pins s sym hrst hpres h0 => ?_, fun pins s hrst hnone => ?_⟩
  · have hacted := actedCode_of_legal hpres h0
    refine ⟨by simp [outputs, hacted, changedFlag], ?_, ?_⟩
    · simp only [outputs, commandCode_of_not_actIn hrst (drive_ne_actIn_of_presented hpres), hacted,
        Option.bind_some, actValidFlag, actCmdOf]
      by_cases hz : sym.code = 0b00000#5 <;> simp [hz]
    · rw [clockCycle_eq P pins s hrst]
      exact (congrArg Movement.code (motionEdge_mstate_of_legal hpres h0)).trans (cell_code s.mstate sym)
  · have hacted := actedCode_eq_none hnone
    obtain ⟨hchanged, hcmd⟩ := outputs_of_not_acted hrst hacted
    refine ⟨hchanged, ?_, hcmd⟩
    rw [clockCycle_eq P pins s hrst]
    exact motionEdge_mstate_of_not_acted hacted

/-- Settles O22: an illegal code decodes to no symbol, at both levels, and a legal one to its own. -/
theorem unknownSymbolRaisesTheAssertion : Obligations.UnknownSymbolRaisesTheAssertion := by
  refine ⟨fun s c rest hin hc => ?_, fun s sym rest hin => ?_, fun s c hc => clockCycle_of_illegal P s hc⟩
  · obtain ⟨hrep, hforward, hbackward, hleft, hright, hstop⟩ := hc
    have hnone : symbolOfCode? c = none := symbolOfCode?_eq_none fun sym => by cases sym <;> assumption
    rw [step_cons s _ rest hin]
    simp only [takeInput, hnone]
    rfl
  · rw [step_cons s _ rest hin]
    simp only [takeInput, symbolOfCode?_code]
    rfl

end Sys2Proof.Claims
end

section
/-! SUPPORT. The Actuator's event level: the clamp, the duty rows at its corners, and what one call, of a channel or of
a whole primitive, leaves and shows with no burst in progress (42_actuator.md R170 to R181, R185, R189). -/

namespace Sys2Proof.Machine

open Sys2Proof.Claims

/-! ## The clamp (R172) and the corners of the duty rows (R189) -/

/-- CLAMP is the nearest value of the range, on the integers. -/
theorem clamp_eq_max_min (p : Params) (v : Int) : (clamp p v : Int) = max 0 (min v p.maxDuty) := by
  unfold clamp
  split_ifs <;> omega

theorem clamp_of_nonpos (p : Params) {v : Int} (h : v ≤ 0) : clamp p v = 0 := by
  have := clamp_eq_max_min p v
  omega

theorem clamp_of_maxDuty_le (p : Params) {v : Int} (h : p.maxDuty ≤ v) : clamp p v = p.maxDuty := by
  have := clamp_eq_max_min p v
  omega

theorem clamp_of_mem (p : Params) {v : Int} (h0 : 0 ≤ v) (h1 : v ≤ p.maxDuty) : (clamp p v : Int) = v := by
  rw [clamp_eq_max_min, min_eq_left h1, max_eq_right h0]

theorem clamp_mono (p : Params) {v w : Int} (h : v ≤ w) : clamp p v ≤ clamp p w := by
  have hv := clamp_eq_max_min p v
  have hw := clamp_eq_max_min p w
  omega

/-- At duty 0 every row of R185 is the row of `stop()`. -/
theorem dutyRow_zero (mode : SpinMode) (q : Primitive) : dutyRow mode 0 q = ⟨0, 0, 0, 0⟩ := by
  rcases q with m | _
  · cases m <;> cases mode <;> rfl
  · rfl

/-! ## A call with no burst in progress -/

theorem step_channel_of_idle {s : State} {c : ChannelCall} {rest : List Input} (h0 : s.burstCnt = 0)
    (hin : s.input = .channel c :: rest) :
    step s = .next (runWrites (channelWrites P c) (s.setInput rest)) := by
  rw [step_cons s _ rest hin, takeInput, channelCall, settle_of_idle P (s.setInput rest) h0]

/-- Everything a composed primitive leaves and shows. -/
theorem actuate_of_idle (p : Params) (q : Primitive) (d : Int) {s : State} (h0 : s.burstCnt = 0) :
    (actuate p q d s).duty = dutyRow p.spinMode (clamp p d) q ∧
      (actuate p q d s).trace = s.trace ++ callObs p q d ∧ (actuate p q d s).burstCnt = 0 ∧
      (actuate p q d s).burstCmd = burstCmdAfter q s.burstCmd ∧ (actuate p q d s).mstate = s.mstate ∧
      keepsCodecAndFault s (actuate p q d s) := by
  obtain ⟨hkeeps, hm⟩ := actuate_keeps p q d s
  refine ⟨?_, ?_, ?_, ?_, hm, hkeeps⟩ <;> rw [actuate, settle_of_idle p s h0]
  · exact callPrimitive_duty p q d s
  · exact callPrimitive_trace p q d s
  · exact callPrimitive_burstCnt p q d s h0
  · exact callPrimitive_burstCmd_after p q d s

/-- A call at the machine's cruising duty shows itself and the writes of its rule (R177 to R181). -/
theorem callObs_cruise (q : Primitive) : callObs P q P.cruiseDuty = .call q :: writesOf q := by
  rcases q with m | _
  · cases m <;> cases hmode : P.spinMode <;>
      simp [callObs, writesOf, pForwardShows, pBackwardShows, pSpinLeftShows, pSpinRightShows, hmode, phase1, phase2,
        roleA, roleB, burstWrites, cruiseWrites, chForward, chBackward, chStop, fwdPin, bwdPin, writeObs]
  · rfl

/-- The writes of a spin, with its call, are those its rule lists for the machine's spin mode. -/
theorem spin_shows :
    (.call (.move .spinLeft) :: writesOf (.move .spinLeft) = pSpinLeftShows P.spinMode) ∧
      (.call (.move .spinRight) :: writesOf (.move .spinRight) = pSpinRightShows P.spinMode) := by
  simp only [writesOf]
  cases P.spinMode <;> exact ⟨rfl, rfl⟩

/-- An Actuator command with no burst in progress: its row at the cruising duty, and the writes of its rule. -/
theorem exec_ofPrimitive_of_idle (q : Primitive) {s : State} (h0 : s.burstCnt = 0) :
    ∃ t, exec (Instr.ofPrimitive q) s = .next t ∧ t.duty = cruiseDuties P q ∧
      t.trace = s.trace ++ .call q :: writesOf q ∧ t.burstCnt = 0 ∧ t.burstCmd = burstCmdAfter q s.burstCmd ∧
      t.mstate = s.mstate ∧ keepsCodecAndFault s t := by
  rw [← callObs_cruise]
  exact ⟨_, exec_ofPrimitive q s, actuate_of_idle P q P.cruiseDuty h0⟩

/-- A symbol that changes the state ends in the cruise duties of the asked state's primitive (41_motion_fsm.md R143). -/
theorem applySymbol_duty_of_change (p : Params) {sym : Symbol} {m : Movement} {s : State} (ht : target sym = some m)
    (hm : m ≠ s.mstate) : (applySymbol p sym s).duty = cruiseDuties p (prim m) := by
  rw [applySymbol_eq_cell, cell_of_change ht hm]
  exact callPrimitive_duty p (prim m) p.cruiseDuty (settle p s)

end Sys2Proof.Machine

namespace Sys2Proof.Claims

open Sys2Proof.Machine

/-- Settles O25: each law follows from the clamp as the nearest value of the range (`clamp_eq_max_min`). -/
theorem clampLaws : Obligations.ClampLaws := by
  intro p v w
  refine ⟨fun h => clamp_of_nonpos p h.le, fun h => clamp_of_maxDuty_le p h.le, clamp_of_mem p, clamp_zero p,
    clamp_maxDuty p, clamp_of_nonpos p (by decide), clamp_of_maxDuty_le p (by omega), ?_, clamp_mono p⟩
  exact Int.ofNat.inj (clamp_of_mem p (Int.natCast_nonneg _) (Int.ofNat_le.2 (clamp_le p v)))

/-- Settles O26: the step runs the two writes of `chX_forward` (`step_channel_of_idle`). -/
theorem channelForwardResult : Obligations.ChannelForwardResult := by
  intro s d rest h0
  refine ⟨fun hin => ?_, fun hin => ?_, fun hd => clamp_of_nonpos P hd⟩ <;>
    rw [step_channel_of_idle h0 hin, runWrites_eq] <;> rfl

/-- Settles O27: the step runs the two writes of `chX_backward` and of `chX_stop` (`step_channel_of_idle`). -/
theorem channelBackwardAndStopResult : Obligations.ChannelBackwardAndStopResult := by
  intro s d rest h0
  refine ⟨fun hin => ?_, fun hin => ?_, fun hin => ?_, fun hin => ?_⟩ <;>
    rw [step_channel_of_idle h0 hin, runWrites_eq] <;> rfl

/-- Settles O28: what an Actuator command leaves and shows (`exec_ofPrimitive_of_idle`), for these two. -/
theorem forwardAndBackwardPrimitives : Obligations.ForwardAndBackwardPrimitives := fun _ h0 =>
  ⟨exec_ofPrimitive_of_idle (.move .forward) h0, exec_ofPrimitive_of_idle (.move .backward) h0⟩

/-- Settles O29: as O28, with the writes (`spin_shows`) and the row of R185 for the machine's spin mode. -/
theorem spinPrimitives : Obligations.SpinPrimitives := by
  intro s h0
  obtain ⟨l, hl, hlduty, hltrace, hlcnt, hlcmd, hlm, hlkeeps⟩ := exec_ofPrimitive_of_idle (.move .spinLeft) h0
  obtain ⟨r, hr, hrduty, hrtrace, hrcnt, hrcmd, hrm, hrkeeps⟩ := exec_ofPrimitive_of_idle (.move .spinRight) h0
  rw [spin_shows.1] at hltrace
  rw [spin_shows.2] at hrtrace
  rw [cruiseDuties] at hlduty hrduty
  exact ⟨⟨l, hl, hltrace, hlcnt, hlcmd, hlm, hlkeeps, fun hmode => by rw [hlduty, hmode]; rfl,
      fun hmode => by rw [hlduty, hmode]; rfl⟩,
    ⟨r, hr, hrtrace, hrcnt, hrcmd, hrm, hrkeeps, fun hmode => by rw [hrduty, hmode]; rfl,
      fun hmode => by rw [hrduty, hmode]; rfl⟩⟩

/-- Settles O32: what a call leaves and shows does not depend on where its duty comes from (`actuate_of_idle`). -/
theorem composedPrimitiveWithItsOwnDuty : Obligations.ComposedPrimitiveWithItsOwnDuty := by
  intro s q d rest h0 hin
  obtain ⟨hduty, htrace, hcnt, hcmd, hm, hw, hf, he, hi⟩ := actuate_of_idle P q d (s := s.setInput rest) h0
  exact ⟨_, step_cons s _ rest hin, hduty, htrace, hcnt, hcmd, hm, he, hw, hf, hi⟩

/-- Settles O35: the clamp at and beyond its two ends, in the rows of R185. -/
theorem cruiseDutyCorners : Obligations.CruiseDutyCorners := by
  refine ⟨fun p m h => ?_, fun p sym m s h ht hm => ⟨?_, ?_⟩⟩
  · rw [cruiseDuties, clamp_of_maxDuty_le p h, burstDuties]
  · rw [applySymbol_duty_of_change p ht hm.symm, cruiseDuties, clamp_of_nonpos p h, dutyRow_zero]
  · rw [applySymbol_mstate, ht]
    rfl

end Sys2Proof.Claims
end

section
/-! SUPPORT. The channel-pair invariant between the ordered writes: every write list of the Actuator is made of writes
to one channel that zero a pin before the other is driven (42_actuator.md R173 to R182). -/

namespace Sys2Proof.Machine

/-- The channel-pair invariant survives any number of the first writes of a list. -/
def KeepsPairs (ws : List PinWrite) : Prop :=
  ∀ (k : Nat) (d : Duties), d.pairOk → ((ws.take k).foldl (fun d w => d.set w.1 w.2) d).pairOk

theorem keepsPairs_nil : KeepsPairs [] := by
  intro k d h
  rwa [List.take_nil]

theorem keepsPairs_append {a b : List PinWrite} (ha : KeepsPairs a) (hb : KeepsPairs b) : KeepsPairs (a ++ b) := by
  intro k d h
  rw [List.take_append, List.foldl_append]
  exact hb _ _ (ha _ _ h)

theorem pairOk_set_zero {d : Duties} (h : d.pairOk) (pin : Pin) : (d.set pin 0).pairOk := by
  obtain ⟨ha, hb⟩ := h
  cases pin <;> simp [Duties.set, Duties.pairOk, ha, hb]

/-- With the one pin of its channel zeroed, the other can be driven at any duty. -/
theorem pairOk_set_forward {d : Duties} (h : d.pairOk) (c : Channel) (v : Nat) :
    ((d.set (bwdPin c) 0).set (fwdPin c) v).pairOk := by
  obtain ⟨ha, hb⟩ := h
  cases c <;> simp [Duties.set, Duties.pairOk, fwdPin, bwdPin, ha, hb]

theorem pairOk_set_backward {d : Duties} (h : d.pairOk) (c : Channel) (v : Nat) :
    ((d.set (fwdPin c) 0).set (bwdPin c) v).pairOk := by
  obtain ⟨ha, hb⟩ := h
  cases c <;> simp [Duties.set, Duties.pairOk, fwdPin, bwdPin, ha, hb]

/-- A write of zero is safe by itself, so of two writes only the result of both is left to check. -/
theorem keepsPairs_zero_then {x y : Pin} {v : Nat}
    (h : ∀ d : Duties, d.pairOk → ((d.set x 0).set y v).pairOk) : KeepsPairs [(x, 0), (y, v)] := by
  rintro (_ | _ | k) d hd
  · exact hd
  · exact pairOk_set_zero hd x
  · simpa using h d hd

theorem keepsPairs_chForward (p : Params) (c : Channel) (d : Int) : KeepsPairs (chForward p c d) :=
  keepsPairs_zero_then fun _ h => pairOk_set_forward h c _

theorem keepsPairs_chBackward (p : Params) (c : Channel) (d : Int) : KeepsPairs (chBackward p c d) :=
  keepsPairs_zero_then fun _ h => pairOk_set_backward h c _

theorem keepsPairs_chStop (c : Channel) : KeepsPairs (chStop c) :=
  keepsPairs_zero_then fun _ h => pairOk_set_backward h c 0

theorem keepsPairs_channelWrites (p : Params) (c : ChannelCall) : KeepsPairs (channelWrites p c) := by
  cases c with
  | forward c d => exact keepsPairs_chForward p c d
  | backward c d => exact keepsPairs_chBackward p c d
  | stop c => exact keepsPairs_chStop c

theorem keepsPairs_burstWrites (p : Params) (c : Channel) (r : Role) : KeepsPairs (burstWrites p c r) := by
  cases r with
  | forward => exact keepsPairs_chForward p c p.maxDuty
  | backward => exact keepsPairs_chBackward p c p.maxDuty
  | stopped => exact keepsPairs_chStop c

theorem keepsPairs_cruiseWrites (p : Params) (c : Channel) (d : Int) (r : Role) :
    KeepsPairs (cruiseWrites p c d r) := by
  cases r with
  | forward => exact keepsPairs_chForward p c d
  | backward => exact keepsPairs_chBackward p c d
  | stopped => exact keepsPairs_nil

theorem keepsPairs_phases (p : Params) (m : Moving) (d : Int) : KeepsPairs (phase1 p m ++ phase2 p m d) :=
  keepsPairs_append (keepsPairs_append (keepsPairs_burstWrites p _ _) (keepsPairs_burstWrites p _ _))
    (keepsPairs_append (keepsPairs_cruiseWrites p _ d _) (keepsPairs_cruiseWrites p _ d _))

theorem keepsPairs_stopWrites : KeepsPairs stopWrites :=
  keepsPairs_append (keepsPairs_chStop .a) (keepsPairs_chStop .b)

theorem runWrites_take_pairOk {ws : List PinWrite} (hws : KeepsPairs ws) (k : Nat) {s : State} (h : s.duty.pairOk) :
    (runWrites (ws.take k) s).duty.pairOk := by
  rw [runWrites_eq]
  exact hws k s.duty h

theorem actuatorEdge_pairOk (p : Params) (pins : Pins) {s : State} (h : s.duty.pairOk) :
    (actuatorEdge p pins s s).duty.pairOk := by
  rcases actuatorEdge_cases p pins s s with ⟨-, hr⟩ | ⟨-, -, hr⟩ | ⟨q, -, -, hr⟩ <;> rw [hr]
  · rw [tick_eq]
    dsimp only
    split_ifs
    · exact dutyRow_pairOk _ _ _
    · exact h
  · exact h
  · rw [issue_eq]
    exact dutyRow_pairOk _ _ _

theorem clockCycle_pairOk (p : Params) (pins : Pins) {s : State} (h : s.duty.pairOk) :
    (clockCycle p pins s).duty.pairOk := by
  cases hrst : pins.rst with
  | true =>
    rw [clockCycle_rst p pins s hrst]
    exact dutyRow_pairOk p.spinMode 0 .stop
  | false =>
    rw [clockCycle_eq p pins s hrst]
    exact actuatorEdge_pairOk p pins h

end Sys2Proof.Machine

namespace Sys2Proof.Claims

open Sys2Proof.Machine

/-- Settles O33: every write list is made of per-channel lists, which keep the pairs throughout (`KeepsPairs`); a clock
edge writes a row of R185 or leaves the duties. -/
theorem pairInvariantAtEveryInstant : Obligations.PairInvariantAtEveryInstant :=
  ⟨fun p m d k _ h => runWrites_take_pairOk (keepsPairs_phases p m d) k h,
    fun k _ h => runWrites_take_pairOk keepsPairs_stopWrites k h,
    fun p c k _ h => runWrites_take_pairOk (keepsPairs_channelWrites p c) k h,
    dutyRow_pairOk P.spinMode 0 .stop, fun pins _ h => clockCycle_pairOk P pins h⟩

end Sys2Proof.Claims
end

section
/-! SUPPORT. The Actuator in clock cycles: the cycle that issues a primitive, the burst after it, and an illegal command
(42_actuator.md R184, R187, R188). -/

namespace Sys2Proof.Machine

open Sys2Proof.Claims

/-! ## The issuing cycle -/

theorem rst_of_commandCode {pins : Pins} {s : State} {c : Code} (h : commandCode pins s = some c) :
    pins.rst = false := by
  by_contra hrst
  simp [commandCode, hrst] at h

theorem primitive_code_injective {q r : Primitive} (h : q.code = r.code) : q = r := by
  have hq := primitiveOfCode?_code q
  rw [h, primitiveOfCode?_code] at hq
  exact (Option.some.inj hq).symm

/-- With no burst in progress a command leaves in the Actuator's registers what it issues (R187). -/
theorem clockCycle_of_command (p : Params) {pins : Pins} {s : State} {q : Primitive} (h0 : s.burstCnt = 0)
    (hcmd : commandCode pins s = some q.code) :
    (clockCycle p pins s).duty = burstDuties p q ∧ (clockCycle p pins s).burstCnt = (issue p q s).burstCnt ∧
      (clockCycle p pins s).burstCmd = burstCmdAfter q s.burstCmd := by
  have hedge : actuatorEdge p pins s s = issue p q s := by
    rcases actuatorEdge_cases p pins s s with ⟨hbusy, -⟩ | ⟨-, hnone, -⟩ | ⟨r, -, hr, h⟩
    · exact absurd h0 hbusy
    · exact absurd hcmd (hnone q)
    · rw [hcmd] at hr
      rw [h, primitive_code_injective (Option.some.inj hr)]
  rw [clockCycle_eq p pins s (rst_of_commandCode hcmd), hedge]
  cases q <;> exact ⟨rfl, rfl, rfl⟩

/-! ## The burst -/

/-- Cycles without `rst` fewer than the burst has left only count it down (R184, R187). -/
theorem clockRun_during_burst (p : Params) {later : List Pins} (hrst : ∀ q ∈ later, q.rst = false) {s : State}
    (hlen : later.length < s.burstCnt) :
    (clockRun p later s).burstCnt = s.burstCnt - later.length ∧ (clockRun p later s).burstCmd = s.burstCmd ∧
      (clockRun p later s).duty = s.duty := by
  induction later generalizing s with
  | nil => exact ⟨rfl, rfl, rfl⟩
  | cons q rest ih =>
    obtain ⟨hq, hrest⟩ := List.forall_mem_cons.1 hrst
    rw [List.length_cons] at hlen ⊢
    obtain ⟨hduty, hcnt, hcmd⟩ := clockCycle_busy p q s hq (by omega)
    have hone : s.burstCnt ≠ 1 := by omega
    simp only [tick_eq, hone, if_false] at hduty hcnt
    obtain ⟨hcnt', hcmd', hduty'⟩ := ih hrest (s := clockCycle p q s) (by omega)
    rw [clockRun_cons]
    exact ⟨by omega, hcmd'.trans hcmd, hduty'.trans hduty⟩

/-- Cycles without `rst` as many as the burst has left end it with the cruise duties of its primitive (R187). -/
theorem clockRun_to_end_of_burst (p : Params) {later : List Pins} (hrst : ∀ q ∈ later, q.rst = false) {s : State}
    (hbusy : s.burstCnt ≠ 0) (hlen : later.length = s.burstCnt) :
    (clockRun p later s).burstCnt = 0 ∧ (clockRun p later s).duty = cruiseDuties p (.move s.burstCmd) := by
  rcases List.eq_nil_or_concat' later with rfl | ⟨init, q, rfl⟩
  · exact absurd hlen.symm hbusy
  · rw [List.length_append, List.length_singleton] at hlen
    obtain ⟨hinit, hq⟩ := List.forall_mem_append.1 hrst
    obtain ⟨hcnt, hcmd, -⟩ := clockRun_during_burst p hinit (s := s) (by omega)
    have hone : (clockRun p init s).burstCnt = 1 := by omega
    obtain ⟨hduty', hcnt', -⟩ :=
      clockCycle_busy p q (clockRun p init s) (hq q (List.mem_singleton_self q)) (by omega)
    rw [clockRun_snoc, hduty', hcnt', tick_eq, hone, hcmd]
    exact ⟨rfl, rfl⟩

/-! ## An illegal command (R188) -/

theorem actedCode_legal {pins : Pins} {s : State} {c : Code} (h : actedCode pins s = some c) :
    ∃ sym : Symbol, c = sym.code := by
  unfold actedCode at h
  split at h
  · cases h
  · split_ifs at h with hlegal
    cases h
    obtain ⟨hsome, -⟩ := Bool.and_eq_true_iff.1 hlegal
    obtain ⟨sym, hsym⟩ := Option.isSome_iff_exists.1 hsome
    exact ⟨sym, symbolOfCode?_eq_some.1 hsym⟩

/-- The state machine drives the code of the call of a cell of R150, and no other. -/
theorem commandCode_legal {pins : Pins} {s : State} {c : Code} (hdrive : ∀ v x, pins.drive ≠ .actIn v x)
    (h : commandCode pins s = some c) : ∃ q : Primitive, c = q.code := by
  rw [commandCode_of_not_actIn (rst_of_commandCode h) hdrive] at h
  obtain ⟨x, hx, hc⟩ := Option.bind_eq_some_iff.1 h
  obtain ⟨sym, rfl⟩ := actedCode_legal hx
  rw [actCmd_eq_cell, Option.map_eq_some_iff] at hc
  obtain ⟨q, -, rfl⟩ := hc
  exact ⟨q, rfl⟩

theorem decodeInstr_act_of_illegal {c : Code} (h : ∀ q : Primitive, c ≠ q.code) :
    decodeInstr (.act c) = .error .notActuatorCommand := by
  have hnone : primitiveOfCode? c = none :=
    Option.eq_none_iff_forall_ne_some.2 fun q hq => h q (primitiveOfCode?_eq_some.1 hq)
  simp [decodeInstr, hnone]

/-- An illegal command alone leaves every register in a cycle with no burst in progress. -/
theorem clockCycle_of_illegal_command (p : Params) {c : Code} {s : State} (h : ∀ q : Primitive, c ≠ q.code)
    (h0 : s.burstCnt = 0) : sameRegisters (clockCycle p ⟨false, .actIn true c⟩ s) s := by
  have hedge : actuatorEdge p ⟨false, .actIn true c⟩ s s = s := by
    rcases actuatorEdge_cases p ⟨false, .actIn true c⟩ s s with ⟨hbusy, -⟩ | ⟨-, -, hr⟩ | ⟨q, -, hq, -⟩
    · exact absurd h0 hbusy
    · exact hr
    · exact absurd (Option.some.inj hq) (h q)
  rw [clockCycle_eq p _ s rfl, hedge]
  exact sameRegisters_refl s

end Sys2Proof.Machine

namespace Sys2Proof.Claims

open Sys2Proof.Machine

/-- Settles O30: the event level by `callPrimitive_eq`, the clock cycle by what it issues (`clockCycle_of_command`). -/
theorem stopPrimitive : Obligations.StopPrimitive := by
  refine ⟨fun s h0 => ?_, fun s h0 => ?_⟩
  · refine (exec_ofPrimitive .stop s).trans ?_
    rw [actuate, settle_of_idle P s h0, callPrimitive_eq]
    rfl
  · obtain ⟨hduty, hcnt, -⟩ :=
      clockCycle_of_command P (pins := ⟨false, .actIn true 0b10000#5⟩) (q := .stop) h0 rfl
    exact ⟨hcnt.trans h0, hduty⟩

/-- Settles O31: the call ends in its row at the cruising duty, the issuing edge in the row at `MAX_DUTY`, and the rows
are those of the table. -/
theorem dutiesDependOnlyOnThePrimitive : Obligations.DutiesDependOnlyOnThePrimitive := by
  refine ⟨fun q s => ⟨_, exec_ofPrimitive q s, ?_⟩, fun m s h0 => ?_⟩
  · rw [actuate, callPrimitive_duty]
    rcases q with m | _
    · cases m <;> cases P.spinMode <;> rfl
    · rfl
  · obtain ⟨hduty, -⟩ := clockCycle_of_command P (pins := ⟨false, .actIn true (Primitive.move m).code⟩) h0 rfl
    rw [hduty, burstDuties]
    cases m <;> cases P.spinMode <;> rfl

/-- Settles O34: the state machine's command is of a cell of R150 (`commandCode_legal`); an illegal code decodes to no
instruction and issues nothing. -/
theorem illegalActuatorCodeWritesNothing : Obligations.IllegalActuatorCodeWritesNothing := by
  refine ⟨fun pins s c => commandCode_legal, fun s c rest h hin => ?_, fun s c h h0 =>
    clockCycle_of_illegal_command P h h0⟩
  rw [step_cons s _ rest hin]
  exact takeInput_of_decodeInstr_error (r := .act c) rfl (decodeInstr_act_of_illegal h) _

/-- Settles O40: the issuing cycle loads the counter (`clockCycle_of_command`), and the cycles after it only count it
down (`clockRun_during_burst`, `clockRun_to_end_of_burst`). -/
theorem burstTiming : Obligations.BurstTiming := by
  intro pins s m h0 hcmd
  obtain ⟨hduty, hcnt, hname⟩ := clockCycle_of_command P h0 hcmd
  have hticks : (clockCycle P pins s).burstCnt = P.burstTicks := hcnt
  rw [← hticks]
  refine ⟨fun later hrst hlen => ?_, fun later hrst hlen => ?_⟩
  · obtain ⟨hcnt', hcmd', hduty'⟩ := clockRun_during_burst P hrst hlen
    refine ⟨hcnt', ?_, hcmd'.trans hname, hduty'.trans hduty⟩
    rw [busy, bne_iff_ne]
    omega
  · have hbusy : (clockCycle P pins s).burstCnt ≠ 0 := hticks ▸ params_burstTicks_ne_zero
    obtain ⟨hend, hcruise⟩ := clockRun_to_end_of_burst P hrst hbusy hlen
    rw [hname] at hcruise
    exact ⟨by rw [busy, hend]; rfl, hcruise⟩

end Sys2Proof.Claims
end

section
/-! SUPPORT. A burst in progress runs out first: each operation that waits for it does in a busy state what it does in
the state at the burst's end (42_actuator.md R183, 43_top_loop.md R203; log entry 4). -/

namespace Sys2Proof.Machine

open Sys2Proof.Claims

theorem settle_settle (p : Params) (s : State) : settle p (settle p s) = settle p s :=
  settle_of_idle p _ (settle_burstCnt p s)

theorem settle_setInput (p : Params) (s : State) (l : List Input) :
    settle p (s.setInput l) = (settle p s).setInput l :=
  (apply_ite (State.setInput · l) (s.burstCnt = 0) s (endBurst p s)).symm

theorem actuate_settle (p : Params) (q : Primitive) (d : Int) (s : State) :
    actuate p q d (settle p s) = actuate p q d s := by
  rw [actuate, settle_settle, actuate]

theorem channelCall_settle (p : Params) (c : ChannelCall) (s : State) :
    channelCall p c (settle p s) = channelCall p c s := by
  rw [channelCall, settle_settle, channelCall]

theorem applySymbol_settle (p : Params) (sym : Symbol) (s : State) :
    applySymbol p sym (settle p s) = applySymbol p sym s := by
  rw [applySymbol_eq_cell, applySymbol_eq_cell, settle_settle, settle_mstate]

theorem receiveByte_settle (p : Params) (b : Byte) (s : State) : receiveByte p b (settle p s) = receiveByte p b s := by
  simp only [receiveByte, settle_settle]

theorem exec_settle {i : Instr} (hflush : i ≠ .flush) (hreset : i ≠ .reset) (s : State) :
    exec i s = exec i (settle P s) := by
  rcases instr_cases i with ⟨sym, rfl⟩ | ⟨q, rfl⟩ | rfl | rfl | ⟨b, rfl⟩
  · rw [exec_ofSymbol, exec_ofSymbol, applySymbol_settle]
  · rw [exec_ofPrimitive, exec_ofPrimitive, actuate_settle]
  · exact absurd rfl hreset
  · exact absurd rfl hflush
  · rw [exec_rxbyte, exec_rxbyte, receiveByte_settle]

/-- The inputs that call the Actuator or the state machine directly, and mean something to it. -/
theorem takeInput_settle {i : Input}
    (hi : (∃ c, i = .channel c) ∨ (∃ q d, i = .composed q d) ∨ (∃ y : Symbol, i = .symbol y.code) ∨
      ∃ q : Primitive, i = .actuator q.code) (s : State) :
    takeInput i s = takeInput i (settle P s) := by
  rcases hi with ⟨c, rfl⟩ | ⟨q, d, rfl⟩ | ⟨y, rfl⟩ | ⟨q, rfl⟩
  · simp only [takeInput, channelCall_settle]
  · simp only [takeInput, actuate_settle]
  · simp only [takeInput, symbolOfCode?_code, exec_ofSymbol, applySymbol_settle]
  · have hdec : decodeInstr (.act q.code) = .ok (Instr.ofPrimitive q) := decodeInstr_act_eq_ok.2 ⟨q, rfl, rfl⟩
    simp only [takeInput, hdec, exec_ofPrimitive, actuate_settle]

end Sys2Proof.Machine

namespace Sys2Proof.Claims

open Sys2Proof.Machine

/-- Settles O48: every waiting operation begins with `settle`, which does nothing the second time (`settle_settle`), and
`settle` is the burst counter run out (`tick_iterate`). -/
theorem busyBlockFinishesItsBurstFirst : Obligations.BusyBlockFinishesItsBurstFirst := by
  refine ⟨fun i s hflush hreset => exec_settle hflush hreset s,
    fun s => ⟨tick_iterate P s.burstCnt s rfl, settle_burstCnt P s⟩, fun s i rest hin hi => ?_, fun s hbusy => ?_⟩
  · have hin' : (settle P s).input = i :: rest := (settle_input P s).trans hin
    rw [step_cons s i rest hin, step_cons _ i rest hin', takeInput_settle hi, settle_setInput]
  · rw [settle_duty, settle_trace, settleObs, if_neg hbusy, if_neg hbusy]
    exact ⟨rfl, rfl⟩

end Sys2Proof.Claims
end

section
/-! SUPPORT. The trace accounts for the duties: what each operation adds to it takes the duties before to the duties
after, and what one edge of the Actuator shows (43_top_loop.md R206, 42_actuator.md R187). -/

namespace Sys2Proof.Machine

open Sys2Proof.Claims

/-! ## What the Actuator's edge shows -/

theorem edgeObs_of_busy (p : Params) (pins : Pins) {s : State} (hbusy : s.burstCnt ≠ 0) :
    edgeObs p pins s = tickObs p s := by
  simp [edgeObs, busy, hbusy]

theorem edgeObs_of_command (p : Params) {pins : Pins} {s : State} {q : Primitive} (h0 : s.burstCnt = 0)
    (hcmd : commandCode pins s = some q.code) : edgeObs p pins s = [.writeAll (burstDuties p q)] := by
  simp [edgeObs, busy, h0, hcmd]

theorem edgeObs_of_no_command (p : Params) {pins : Pins} {s : State} (h0 : s.burstCnt = 0)
    (hcmd : ∀ q : Primitive, commandCode pins s ≠ some q.code) : edgeObs p pins s = [] := by
  have hnone : (commandCode pins s).bind primitiveOfCode? = none := by
    refine Option.eq_none_iff_forall_ne_some.2 fun q hq => ?_
    obtain ⟨c, hc, hcq⟩ := Option.bind_eq_some_iff.1 hq
    exact hcmd q (by rw [hc, primitiveOfCode?_eq_some.1 hcq])
  cases hc : commandCode pins s with
  | none => simp [edgeObs, busy, h0, hc]
  | some c =>
    rw [hc, Option.bind_some] at hnone
    simp [edgeObs, busy, h0, hc, hnone]

/-- A cycle without `rst` shows its ports, and then what the Actuator's edge writes (log entry 19). -/
theorem clockCycle_trace (p : Params) {pins : Pins} (s : State) (hrst : pins.rst = false) :
    (clockCycle p pins s).trace = s.trace ++ .cycle (outputs pins s) :: edgeObs p pins s := by
  rw [clockCycle_eq p pins s hrst]
  exact List.append_assoc ..

/-! ## The writes shown account for the duties -/

/-- The trace is added to, and the writes added take the duties of `s` to those of `t` (43_top_loop.md R206). -/
def State.accountsFor (s t : State) : Prop :=
  ∃ new, t.trace = s.trace ++ new ∧ t.duty = dutiesAfter new s.duty

theorem accountsFor_trans {s t u : State} (h : s.accountsFor t) (g : t.accountsFor u) : s.accountsFor u := by
  obtain ⟨a, hta, hda⟩ := h
  obtain ⟨b, htb, hdb⟩ := g
  exact ⟨a ++ b, by rw [htb, hta, List.append_assoc], by rw [hdb, hda, dutiesAfter_append]⟩

theorem accountsFor_of_eq {s t : State} (ht : t.trace = s.trace) (hd : t.duty = s.duty) : s.accountsFor t :=
  ⟨[], by rw [ht, List.append_nil], hd⟩

theorem accountsFor_refl (s : State) : s.accountsFor s :=
  accountsFor_of_eq rfl rfl

theorem runWrites_accountsFor (ws : List PinWrite) (s : State) : s.accountsFor (runWrites ws s) := by
  rw [runWrites_eq]
  exact ⟨_, rfl, (dutiesAfter_writes ws s.duty).symm⟩

theorem settle_accountsFor (p : Params) (s : State) : s.accountsFor (settle p s) :=
  ⟨_, settle_trace p s, (dutiesAfter_settleObs p s).symm⟩

theorem actuate_accountsFor (p : Params) (q : Primitive) (d : Int) (s : State) : s.accountsFor (actuate p q d s) :=
  accountsFor_trans (settle_accountsFor p s) ⟨_, callPrimitive_trace p q d _, by simp [actuate]⟩

theorem channelCall_accountsFor (p : Params) (c : ChannelCall) (s : State) : s.accountsFor (channelCall p c s) :=
  accountsFor_trans (settle_accountsFor p s) (runWrites_accountsFor _ _)

/-- A symbol calls a primitive or only lets a burst run out, and the value it returns is no write. -/
theorem applySymbol_accountsFor (p : Params) (sym : Symbol) (s : State) : s.accountsFor (applySymbol p sym s) := by
  have happlied (u : State) (m : Movement) (b : Bool) : u.accountsFor ((u.setMstate m).record (.applied sym b)) :=
    ⟨_, rfl, rfl⟩
  rw [applySymbol_eq_cell]
  cases (cell s.mstate sym).2.1 with
  | none => exact accountsFor_trans (settle_accountsFor p s) (happlied _ _ _)
  | some q => exact accountsFor_trans (actuate_accountsFor p q p.cruiseDuty s) (happlied _ _ _)

theorem receiveByte_accountsFor (p : Params) (b : Byte) (s : State) : s.accountsFor (receiveByte p b s) := by
  have hcodec (w : Window) (f : Fin 9) : s.accountsFor ((settle p s).setCodec w f) :=
    accountsFor_trans (settle_accountsFor p s) (accountsFor_of_eq rfl rfl)
  rcases receiveByte_cases p b s with ⟨-, h⟩ | ⟨sym, -, h⟩ <;> rw [h]
  · exact hcodec _ _
  · exact accountsFor_trans (hcodec _ _) (applySymbol_accountsFor p sym _)

theorem resetBlock_accountsFor (s : State) : s.accountsFor (resetBlock s) :=
  ⟨_, resetBlock_trace s, rfl⟩

theorem execResult_accountsFor {s t : State} (h : ExecResult s t) : s.accountsFor t := by
  cases h with
  | command sym => exact applySymbol_accountsFor P sym s
  | primitive q => exact actuate_accountsFor P q _ s
  | reset => exact resetBlock_accountsFor s
  | flush => exact accountsFor_of_eq rfl rfl
  | byte b => exact receiveByte_accountsFor P b s

theorem dutiesAfter_tickObs (p : Params) (s : State) : dutiesAfter (tickObs p s) s.duty = (tick p s).duty := by
  rw [tick_eq, tickObs]
  split_ifs <;> rfl

theorem tick_accountsFor (p : Params) (s : State) : s.accountsFor (tick p s) :=
  ⟨_, by rw [tick_eq], (dutiesAfter_tickObs p s).symm⟩

theorem dutiesAfter_edgeObs (p : Params) (pins : Pins) (s : State) :
    dutiesAfter (edgeObs p pins s) s.duty = (actuatorEdge p pins s s).duty := by
  rcases actuatorEdge_cases p pins s s with ⟨hbusy, h⟩ | ⟨h0, hcmd, h⟩ | ⟨q, h0, hcmd, h⟩ <;> rw [h]
  · rw [edgeObs_of_busy p pins hbusy, dutiesAfter_tickObs]
  · rw [edgeObs_of_no_command p h0 hcmd, dutiesAfter_nil]
  · rw [edgeObs_of_command p h0 hcmd, issue_eq]
    rfl

theorem clockCycle_accountsFor (p : Params) (pins : Pins) (s : State) : s.accountsFor (clockCycle p pins s) := by
  cases hrst : pins.rst with
  | true =>
    rw [clockCycle_rst p pins s hrst]
    exact accountsFor_trans ⟨_, rfl, rfl⟩ (resetBlock_accountsFor (s.record _))
  | false =>
    refine ⟨_, clockCycle_trace p s hrst, ?_⟩
    rw [dutiesAfter_cycle, dutiesAfter_edgeObs, clockCycle_eq p pins s hrst]

theorem stepResult_accountsFor {s t : State} (hst : StepResult s t) : s.accountsFor t := by
  have htaken {u : State} (h : (s.setInput s.input.tail).accountsFor u) : s.accountsFor u :=
    accountsFor_trans (accountsFor_of_eq rfl rfl) h
  cases hst with
  | time _ => exact tick_accountsFor P s
  | ignored => exact htaken (accountsFor_refl _)
  | instr i he => exact htaken (execResult_accountsFor (execResult_of_exec he))
  | commands syms =>
    exact htaken (List.foldlRecOn syms _ (accountsFor_refl _) fun u hu sym _ =>
      accountsFor_trans hu (applySymbol_accountsFor P sym u))
  | unknown c _ _ => exact htaken ⟨_, rfl, rfl⟩
  | channel c => exact htaken (channelCall_accountsFor P c _)
  | composed q d => exact htaken (actuate_accountsFor P q d _)
  | clock pins _ => exact htaken (clockCycle_accountsFor P pins _)

theorem writesShown_of_accountsFor {s t : State} (h : s.writesShown) (hst : s.accountsFor t) : t.writesShown := by
  obtain ⟨new, htrace, hduty⟩ := hst
  rw [State.writesShown, hduty, htrace, dutiesAfter_append, ← h]

end Sys2Proof.Machine

namespace Sys2Proof.Claims

open Sys2Proof.Machine

/-- Settles O52: each case of a step accounts for the duties it leaves (`stepResult_accountsFor`), and the writes since
reset are those before the step followed by the step's own. -/
theorem writesShownAccountForTheDuties : Obligations.WritesShownAccountForTheDuties :=
  ⟨fun _ _ hstep => stepResult_accountsFor (stepResult_of_step hstep),
    fun _ _ h hstep => writesShown_of_accountsFor h (stepResult_accountsFor (stepResult_of_step hstep))⟩

/-- Settles O53: after its ports a cycle shows what the Actuator's edge writes (`clockCycle_trace`), which is one of the
three cases of `edgeObs`. -/
theorem cycleLevelWritesAreShown : Obligations.CycleLevelWritesAreShown := by
  intro pins s hrst
  rw [clockCycle_trace P s hrst]
  refine ⟨fun q h0 hcmd => ?_, fun h1 => ?_, ?_⟩
  · rw [edgeObs_of_command P h0 hcmd]
  · rw [edgeObs_of_busy P pins (by omega), tickObs, if_pos h1, endBurstObs]
  · rintro (hbusy | ⟨h0, hcmd⟩)
    · rw [edgeObs_of_busy P pins (by omega), tickObs, if_neg (by omega)]
    · rw [edgeObs_of_no_command P h0 hcmd]

end Sys2Proof.Claims
end

section
/-! SUPPORT. The duties are those of the held state: kept by everything an input of the assembled block can do, and so
by every run of it (43_top_loop.md R205, R208). -/

namespace Sys2Proof.Machine

open Sys2Proof.Claims

/-! ## What an input of the assembled block can do -/

/-- What the taking of an input of the assembled block can lead to: nothing past the Codec drives the state machine or
the Actuator (43_top_loop.md R202, R209). -/
inductive AssembledResult (s : State) : State → Prop
  | ignored : AssembledResult s s
  | reset : AssembledResult s (resetBlock s)
  | flush : AssembledResult s (flushCodec s)
  | byte (b : Byte) : AssembledResult s (receiveByte P b s)
  | commands (syms : List Symbol) : AssembledResult s (syms.foldl (fun u sym => applySymbol P sym u) s)
  | clock (pins : Pins) (hbyte : byteCycle pins = true) : AssembledResult s (clockCycle P pins s)

theorem takeInput_port_result (e : EventVector) (s : State) :
    ∃ t, takeInput (.port e) s = .next t ∧ AssembledResult s t := by
  rcases decodePort_cases e with h | h | h | h <;> simp only [takeInput, decodeInstr, h]
  · exact ⟨_, exec_reset s, .reset⟩
  · exact ⟨_, exec_flush s, .flush⟩
  · exact ⟨_, exec_rxbyte _ s, .byte _⟩
  · exact ⟨_, rfl, .ignored⟩

theorem assembledResult_of_takeInput {i : Input} {s t : State} (hi : assembledInput i = true)
    (h : takeInput i s = .next t) : AssembledResult s t := by
  have hresult : ∃ u, takeInput i s = .next u ∧ AssembledResult s u := by
    cases i with
    | port e => exact takeInput_port_result e s
    | snapshot buf => exact ⟨_, runCommands_eq _ s, .commands _⟩
    | clock pins => exact ⟨_, rfl, .clock pins hi⟩
    | actuator c => cases hi
    | symbol c => cases hi
    | channel c => cases hi
    | composed q d => cases hi
  obtain ⟨u, hu, hres⟩ := hresult
  rw [h] at hu
  cases hu
  exact hres

/-! ## The duties of the held state -/

theorem dutiesAgree_of_idle {p : Params} {s : State} (h0 : s.burstCnt = 0) :
    s.dutiesAgree p ↔ s.duty = cruiseDuties p (prim s.mstate) := by
  rw [State.dutiesAgree, if_pos h0]

theorem dutiesAgree_of_busy {p : Params} {s : State} (hbusy : s.burstCnt ≠ 0) :
    s.dutiesAgree p ↔ prim s.mstate = .move s.burstCmd ∧ s.duty = burstDuties p (.move s.burstCmd) := by
  rw [State.dutiesAgree, if_neg hbusy]

theorem dutiesAgree_setCodec {p : Params} {s : State} (h : s.dutiesAgree p) (w : Window) (f : Fin 9) :
    (s.setCodec w f).dutiesAgree p := h

theorem dutiesAgree_of_sameRegisters {p : Params} {s t : State} (hst : sameRegisters s t) (h : t.dutiesAgree p) :
    s.dutiesAgree p := by
  obtain ⟨-, -, hm, -, hd, hn, hc⟩ := hst
  rwa [State.dutiesAgree, hm, hd, hn, hc]

/-- A burst that runs out leaves the cruise duties of the primitive it names, which is the held state's. -/
theorem settle_dutiesAgree {p : Params} {s : State} (h : s.dutiesAgree p) : (settle p s).dutiesAgree p := by
  by_cases h0 : s.burstCnt = 0
  · rwa [settle_of_idle p s h0]
  · obtain ⟨hprim, -⟩ := (dutiesAgree_of_busy h0).1 h
    rw [dutiesAgree_of_idle (settle_burstCnt p s), settle_duty, if_neg h0, settle_mstate, hprim]

theorem resetBlock_dutiesAgree (p : Params) (s : State) : (resetBlock s).dutiesAgree p := rfl

theorem receiveByte_dutiesAgree {p : Params} (b : Byte) {s : State} (h : s.dutiesAgree p) :
    (receiveByte p b s).dutiesAgree p := by
  have hcodec (w : Window) (f : Fin 9) : ((settle p s).setCodec w f).dutiesAgree p :=
    dutiesAgree_setCodec (settle_dutiesAgree h) w f
  rcases receiveByte_cases p b s with ⟨-, hr⟩ | ⟨sym, -, hr⟩ <;> rw [hr]
  · exact hcodec _ _
  · exact applySymbol_dutiesAgree p sym _ (hcodec _ _)

theorem tick_dutiesAgree {p : Params} {s : State} (h : s.dutiesAgree p) : (tick p s).dutiesAgree p := by
  rcases Nat.lt_trichotomy s.burstCnt 1 with hidle | hlast | hbusy
  · rwa [tick, if_pos (by omega)]
  · have hend : tick p s = settle p s := by simp [tick, settle, hlast]
    rw [hend]
    exact settle_dutiesAgree h
  · rw [dutiesAgree_of_busy (by omega)] at h
    rw [tick, if_neg (by omega), if_neg (by omega), dutiesAgree_of_busy (by rw [setBurstCnt_burstCnt]; omega)]
    exact h

/-- A primitive issued on an edge is in its burst, or is `stop()`, whose duties are its cruise duties (R185, R187). -/
theorem issue_dutiesAgree {p : Params} (hticks : p.burstTicks ≠ 0) (m : Movement) {s : State}
    (h0 : s.burstCnt = 0) : ((issue p (prim m) s).setMstate m).dutiesAgree p := by
  cases hm : prim m with
  | move x => exact (dutiesAgree_of_busy hticks).2 ⟨hm, rfl⟩
  | stop =>
    rw [dutiesAgree_of_idle (s := (issue p .stop s).setMstate m) h0, setMstate_mstate, hm]
    rfl

/-- A cycle that emits a symbol issues the primitive of the state it takes, or leaves both (`cell_cases`). -/
theorem clockCycle_dutiesAgree_of_emitted {p : Params} (hticks : p.burstTicks ≠ 0) {pins : Pins} {s : State}
    {sym : Symbol} (h : s.dutiesAgree p) (he : emittedSymbol pins s = some sym) :
    (clockCycle p pins s).dutiesAgree p := by
  obtain ⟨b, rfl, h0, hfill, hframe⟩ := emittedSymbol_eq_some.1 he
  have hacc : acceptedByte ⟨false, .codec true b false⟩ s = some b := acceptedByte_eq_some.2 ⟨rfl, h0⟩
  refine dutiesAgree_of_sameRegisters
    (clockCycle_cell p hacc (codecAccept_emitted_eq_some.2 ⟨hfill, hframe⟩)) ?_
  rw [codecEdge_of_accepted hacc]
  rcases cell_cases s.mstate sym with ⟨-, hc⟩ | ⟨m, -, -, hc⟩ | ⟨-, hc⟩ <;> rw [hc]
  · exact issue_dutiesAgree hticks s.mstate (s := s.setCodec _ _) h0
  · exact issue_dutiesAgree hticks m (s := s.setCodec _ _) h0
  · exact h

theorem clockCycle_dutiesAgree {p : Params} (hticks : p.burstTicks ≠ 0) {pins : Pins} {s : State}
    (hbyte : byteCycle pins = true) (h : s.dutiesAgree p) : (clockCycle p pins s).dutiesAgree p := by
  cases hrst : pins.rst with
  | true =>
    rw [clockCycle_rst p pins s hrst]
    exact resetBlock_dutiesAgree p _
  | false =>
    cases he : emittedSymbol pins s with
    | some sym => exact clockCycle_dutiesAgree_of_emitted hticks h he
    | none =>
      exact dutiesAgree_of_sameRegisters (clockCycle_of_not_emitted p hbyte hrst he)
        (dutiesAgree_setCodec (tick_dutiesAgree h) _ _)

theorem assembledResult_dutiesAgree {s t : State} (h : s.dutiesAgree P) (hst : AssembledResult s t) :
    t.dutiesAgree P := by
  cases hst with
  | ignored => exact h
  | reset => exact resetBlock_dutiesAgree P s
  | flush => exact h
  | byte b => exact receiveByte_dutiesAgree b h
  | commands syms => exact List.foldlRecOn syms _ h fun u hu sym _ => applySymbol_dutiesAgree P sym u hu
  | clock pins hbyte => exact clockCycle_dutiesAgree params_burstTicks_ne_zero hbyte h

/-! ## Steps and runs of the assembled block -/

theorem assembledInput_head {s : State} {i : Input} {rest : List Input}
    (hin : ∀ i ∈ s.input, assembledInput i = true) (hi : s.input = i :: rest) : assembledInput i = true :=
  hin i (hi ▸ List.mem_cons_self)

theorem step_dutiesAgree {s t : State} (hin : ∀ i ∈ s.input, assembledInput i = true) (h : s.dutiesAgree P)
    (hstep : step s = .next t) : t.dutiesAgree P := by
  cases hi : s.input with
  | nil =>
    rw [step_nil s hi] at hstep
    cases hstep
    exact tick_dutiesAgree h
  | cons i rest =>
    rw [step_cons s i rest hi] at hstep
    exact assembledResult_dutiesAgree (s := s.setInput rest) h
      (assembledResult_of_takeInput (assembledInput_head hin hi) hstep)

/-- No input of the assembled block is a symbol code from outside, which alone could set `fault`. -/
theorem step_fault_of_assembled {s t : State} (hin : ∀ i ∈ s.input, assembledInput i = true) (h : s.fault = false)
    (hstep : step s = .next t) : t.fault = false := by
  rcases stepResult_fault h (stepResult_of_step hstep) with hf | ⟨c, -, rest, hi | hi⟩
  · exact hf
  · cases assembledInput_head hin hi
  · cases assembledInput_head hin hi

theorem step_assembledOk {s t : State} (h : s.assembledOk P) (hstep : step s = .next t) : t.assembledOk P := by
  obtain ⟨hin, hf, hd⟩ := h
  obtain ⟨hinput, -⟩ := stepResult_extendsTrace (stepResult_of_step hstep)
  refine ⟨fun i hi => hin i ?_, step_fault_of_assembled hin hf hstep, step_dutiesAgree hin hd hstep⟩
  rw [hinput] at hi
  exact List.mem_of_mem_tail hi

theorem run_succ_of_step {M : Host.Core} {n : Nat} {s t : M.State} (h : M.step s = .next t) :
    M.run (n + 1) s = M.run n t := by
  rw [Host.Core.run, h]

/-- What every step keeps, every run keeps. -/
theorem run_keeps {I : State → Prop} (hstep : ∀ s t, I s → step s = .next t → I t) (n : Nat) {s t : State} (hs : I s)
    (hrun : Host.Core.run Sys2Proof.core n s = .next t) : I t := by
  induction n generalizing s with
  | zero =>
    cases hrun
    exact hs
  | succ n ih =>
    obtain ⟨u, hu⟩ := step_completes s
    exact ih (hstep s u hs hu) ((run_succ_of_step (M := Sys2Proof.core) hu).symm.trans hrun)

theorem reset_assembledOk {l : List Input} (hl : ∀ i ∈ l, assembledInput i = true) :
    State.assembledOk P { State.reset with input := l } :=
  ⟨hl, rfl, rfl⟩

end Sys2Proof.Machine

namespace Sys2Proof.Claims

open Sys2Proof.Machine

/-- Settles O44: the inputs that can come keep the duties those of the held state (`assembledResult_dutiesAgree`), and a
step of them leaves `fault` at 0 and only removes a pending input. -/
theorem dutiesStayThoseOfTheState : Obligations.DutiesStayThoseOfTheState :=
  fun _ _ h hstep => step_assembledOk h hstep

/-- Settles O45: the reset duties are the cruise duties of `stop()` (`reset_assembledOk`). -/
theorem dutiesAreThoseOfTheStateAtReset : Obligations.DutiesAreThoseOfTheStateAtReset :=
  fun _ hl => reset_assembledOk hl

/-- Settles O46: the invariant of O44 holds at reset (O45) and along every run (`run_keeps`), and with no burst in
progress it is the statement. -/
theorem runEndsWithTheDutiesOfItsState : Obligations.RunEndsWithTheDutiesOfItsState := by
  intro l n t hl hrun h0
  obtain ⟨-, hf, hd⟩ := run_keeps (I := State.assembledOk P) (fun _ _ h hstep => step_assembledOk h hstep) n
    (reset_assembledOk hl) hrun
  exact ⟨hf, (dutiesAgree_of_idle h0).1 hd⟩

end Sys2Proof.Claims
end

section
/-! SUPPORT. A call shows its whole list of writes, and nothing else is shown of the Actuator: for one instruction and
for a POLL, with no burst in progress (43_top_loop.md R206, 42_actuator.md R176 to R181). -/

namespace Sys2Proof.Machine

open Sys2Proof.Claims

@[simp] theorem shownWrites_writes (ws : List PinWrite) : shownWrites (ws.map writeObs) = ws.map writeObs := by
  induction ws with
  | nil => rfl
  | cons w ws ih => exact congrArg (writeObs w :: ·) ih

theorem shownWrites_callObs (p : Params) (q : Primitive) (d : Int) :
    shownWrites (callObs p q d) = (callObs p q d).tail := by
  cases q <;> simp [callObs]

/-! ## Whole calls -/

/-- The writes and waits of a trace are the whole lists of the primitives it calls, in the order of the calls. -/
def WholeCalls (l : List Obs) : Prop :=
  shownWrites l = (calls l).flatMap writesOf

theorem wholeCalls_nil : WholeCalls [] := rfl

theorem wholeCalls_append {a b : List Obs} (ha : WholeCalls a) (hb : WholeCalls b) : WholeCalls (a ++ b) := by
  rw [WholeCalls] at ha hb ⊢
  rw [shownWrites_append, calls_append, List.flatMap_append, ha, hb]

theorem wholeCalls_callObs (q : Primitive) : WholeCalls (callObs P q P.cruiseDuty) := by
  rw [WholeCalls, shownWrites_callObs, calls_callObs, callObs_cruise, List.flatMap_singleton, List.tail_cons]

theorem wholeCalls_applyObs (sym : Symbol) {s : State} (h0 : s.burstCnt = 0) : WholeCalls (applyObs P sym s) := by
  rw [applyObs, settleObs_of_idle P s h0]
  refine wholeCalls_append (wholeCalls_append wholeCalls_nil ?_) rfl
  cases (cell s.mstate sym).2.1 with
  | none => exact wholeCalls_nil
  | some q => exact wholeCalls_callObs q

/-! ## Operations that show whole calls -/

/-- The trace is added to, and what is added shows whole calls. -/
def State.addsWholeCalls (s t : State) : Prop :=
  ∃ new, t.trace = s.trace ++ new ∧ WholeCalls new

theorem addsWholeCalls_of_trace_eq {s t : State} (h : t.trace = s.trace) : s.addsWholeCalls t :=
  ⟨[], by rw [h, List.append_nil], wholeCalls_nil⟩

theorem applySymbol_addsWholeCalls (sym : Symbol) {s : State} (h0 : s.burstCnt = 0) :
    s.addsWholeCalls (applySymbol P sym s) :=
  ⟨_, applySymbol_trace P sym s, wholeCalls_applyObs sym h0⟩

theorem actuate_addsWholeCalls (q : Primitive) {s : State} (h0 : s.burstCnt = 0) :
    s.addsWholeCalls (actuate P q P.cruiseDuty s) := by
  obtain ⟨-, htrace, -⟩ := actuate_of_idle P q P.cruiseDuty h0
  exact ⟨_, htrace, wholeCalls_callObs q⟩

theorem receiveByte_addsWholeCalls (b : Byte) {s : State} (h0 : s.burstCnt = 0) :
    s.addsWholeCalls (receiveByte P b s) := by
  rcases receiveByte_cases P b s with ⟨-, h⟩ | ⟨sym, -, h⟩ <;> rw [h, settle_of_idle P s h0]
  · exact addsWholeCalls_of_trace_eq rfl
  · exact applySymbol_addsWholeCalls sym (s := s.setCodec _ _) h0

/-- One symbol after another: after each the block is idle again (`applySymbol_burstCnt`). -/
theorem foldl_applySymbol_addsWholeCalls (syms : List Symbol) {s : State} (h0 : s.burstCnt = 0) :
    s.addsWholeCalls (syms.foldl (fun u sym => applySymbol P sym u) s) := by
  induction syms generalizing s with
  | nil => exact addsWholeCalls_of_trace_eq rfl
  | cons sym rest ih =>
    obtain ⟨new, htrace, hnew⟩ := ih (applySymbol_burstCnt P sym s)
    refine ⟨applyObs P sym s ++ new, ?_, wholeCalls_append (wholeCalls_applyObs sym h0) hnew⟩
    rw [List.foldl_cons, htrace, applySymbol_trace, List.append_assoc]

theorem exec_addsWholeCalls {i : Instr} (hreset : i ≠ .reset) {s : State} (h0 : s.burstCnt = 0) :
    ∃ t, exec i s = .next t ∧ s.addsWholeCalls t := by
  rcases instr_cases i with ⟨sym, rfl⟩ | ⟨q, rfl⟩ | rfl | rfl | ⟨b, rfl⟩
  · exact ⟨_, exec_ofSymbol sym s, applySymbol_addsWholeCalls sym h0⟩
  · exact ⟨_, exec_ofPrimitive q s, actuate_addsWholeCalls q h0⟩
  · exact absurd rfl hreset
  · exact ⟨_, exec_flush s, addsWholeCalls_of_trace_eq rfl⟩
  · exact ⟨_, exec_rxbyte b s, receiveByte_addsWholeCalls b h0⟩

end Sys2Proof.Machine

namespace Sys2Proof.Claims

open Sys2Proof.Machine

/-- Settles O54: what an instruction or a POLL shows is put together from whole calls (`exec_addsWholeCalls`,
`foldl_applySymbol_addsWholeCalls`). -/
theorem everyCallShowsItsWrites : Obligations.EveryCallShowsItsWrites := by
  refine ⟨fun i s h0 hreset => ?_, fun buf s h0 => ?_⟩
  · obtain ⟨t, ht, new, hnew⟩ := exec_addsWholeCalls hreset h0
    exact ⟨t, new, ht, hnew⟩
  · obtain ⟨new, hnew⟩ := foldl_applySymbol_addsWholeCalls (decodeBuffer buf) h0
    exact ⟨_, new, runCommands_eq _ s, hnew⟩

end Sys2Proof.Claims
end

section
/-! SUPPORT. The streaming form beside the source's loop: with no burst in progress the bytes of a snapshot do to the
block what the symbols of its `decode` do, the Codec's registers apart (43_top_loop.md R200, R204, 40_frame_codec.md
R111). -/

namespace Sys2Proof.Machine

open Sys2Proof.Claims

/-! ## The Codec's registers do not matter to a symbol -/

theorem settle_setCodec (p : Params) (s : State) (w : Window) (f : Fin 9) :
    settle p (s.setCodec w f) = (settle p s).setCodec w f :=
  (apply_ite (State.setCodec · w f) (s.burstCnt = 0) s (endBurst p s)).symm

theorem callPrimitive_setCodec (p : Params) (q : Primitive) (d : Int) (s : State) (w : Window) (f : Fin 9) :
    callPrimitive p q d (s.setCodec w f) = (callPrimitive p q d s).setCodec w f := by
  rw [callPrimitive_eq, callPrimitive_eq]
  rfl

theorem applySymbol_setCodec (p : Params) (sym : Symbol) (s : State) (w : Window) (f : Fin 9) :
    applySymbol p sym (s.setCodec w f) = (applySymbol p sym s).setCodec w f := by
  rw [applySymbol_eq_cell, applySymbol_eq_cell, settle_setCodec, setCodec_mstate]
  cases (cell s.mstate sym).2.1 with
  | none => rfl
  | some q =>
    simp only [Option.elim_some, callPrimitive_setCodec]
    rfl

theorem foldl_applySymbol_setCodec (p : Params) (syms : List Symbol) (s : State) (w : Window) (f : Fin 9) :
    syms.foldl (fun u sym => applySymbol p sym u) (s.setCodec w f) =
      (syms.foldl (fun u sym => applySymbol p sym u) s).setCodec w f :=
  List.foldl_hom (State.setCodec · w f) fun u sym => applySymbol_setCodec p sym u w f

theorem foldl_applySymbol_burstCnt (p : Params) (syms : List Symbol) {s : State} (h0 : s.burstCnt = 0) :
    (syms.foldl (fun u sym => applySymbol p sym u) s).burstCnt = 0 :=
  List.foldlRecOn (motive := fun u : State => u.burstCnt = 0) syms _ h0 fun u _ sym _ => applySymbol_burstCnt p sym u

/-! ## Bytes one by one -/

/-- A byte leaves the Codec as `codecAccept` does and applies the symbol it emits, if any (43_top_loop.md R202). -/
theorem receiveByte_of_idle (p : Params) (b : Byte) {s : State} (h0 : s.burstCnt = 0) :
    receiveByte p b s =
      ((codecAccept s.window s.fill b).emitted.toList.foldl (fun u sym => applySymbol p sym u) s).setCodec
        (codecAccept s.window s.fill b).window (codecAccept s.window s.fill b).fill := by
  rw [codecAccept_window]
  rcases receiveByte_cases p b s with ⟨he, h⟩ | ⟨sym, he, h⟩ <;> rw [h, he, settle_of_idle p s h0]
  · rfl
  · rw [codecAccept_fill_of_emitted he]
    exact applySymbol_setCodec p sym s _ 0

/-- Bytes one by one leave the Codec as `codecFeed` does and apply the symbols it emits, in order. -/
theorem foldl_receiveByte_of_idle (p : Params) (bytes : List Byte) {s : State} (h0 : s.burstCnt = 0) :
    bytes.foldl (fun u b => receiveByte p b u) s =
      ((codecFeed s.window s.fill bytes).1.foldl (fun u sym => applySymbol p sym u) s).setCodec
        (codecFeed s.window s.fill bytes).2.1 (codecFeed s.window s.fill bytes).2.2 := by
  induction bytes generalizing s with
  | nil => rfl
  | cons b rest ih =>
    have hstep := receiveByte_of_idle p b h0
    have hidle : (receiveByte p b s).burstCnt = 0 := by
      rw [hstep]
      exact foldl_applySymbol_burstCnt p _ h0
    rw [List.foldl_cons, ih hidle, hstep, foldl_applySymbol_setCodec, ← List.foldl_append]
    rfl

theorem runInstrs_rxbytes (bytes : List Byte) (s : State) :
    runInstrs (bytes.map Instr.rxbyte) s = .next (bytes.foldl (fun u b => receiveByte P b u) s) := by
  induction bytes generalizing s with
  | nil => rfl
  | cons b rest ih => exact ih (receiveByte P b s)

/-- From `fill` = 0 the bytes of a snapshot apply the symbols of its `decode` (40_frame_codec.md R111). -/
theorem foldl_receiveByte_eq_decodeBuffer (p : Params) (buf : List Byte) {s : State} (hfill : s.fill = 0)
    (h0 : s.burstCnt = 0) : ∃ w f, buf.foldl (fun u b => receiveByte p b u) s =
      ((decodeBuffer buf).foldl (fun u sym => applySymbol p sym u) s).setCodec w f := by
  rw [foldl_receiveByte_of_idle p buf h0, hfill, codecFeed_eq_decodeBuffer]
  exact ⟨_, _, rfl⟩

/-- The same of what is applied, in a busy state too: the first byte waits for the burst, whose end is no symbol (log
entry 4). -/
theorem foldl_receiveByte_returned (p : Params) (buf : List Byte) {s : State} (hfill : s.fill = 0) : ∃ new,
    (buf.foldl (fun u b => receiveByte p b u) s).trace = s.trace ++ new ∧
      (returned new).map Prod.fst = decodeBuffer buf := by
  cases buf with
  | nil => exact ⟨[], by simp, rfl⟩
  | cons b rest =>
    obtain ⟨w, f, hfold⟩ := foldl_receiveByte_eq_decodeBuffer p (b :: rest) (s := settle p s)
      ((settle_fill p s).trans hfill) (settle_burstCnt p s)
    have hwait : (b :: rest).foldl (fun u b => receiveByte p b u) (settle p s) =
        (b :: rest).foldl (fun u b => receiveByte p b u) s := by
      rw [List.foldl_cons, receiveByte_settle, List.foldl_cons]
    obtain ⟨new, htrace, -, hsyms⟩ := foldl_applySymbol_shows p (decodeBuffer (b :: rest)) (settle p s)
    refine ⟨settleObs p s ++ new, ?_, by simpa using hsyms⟩
    rw [← hwait, hfold, setCodec_trace, htrace, settle_trace, List.append_assoc]

/-! ## Snapshots one after another -/

theorem runInstrs_append {xs ys : List Instr} {s t : State} (h : runInstrs xs s = .next t) :
    runInstrs (xs ++ ys) s = runInstrs ys t := by
  induction xs generalizing s with
  | nil =>
    cases h
    rfl
  | cons i xs ih =>
    obtain ⟨u, hu, -⟩ := exec_completes i s
    rw [runInstrs, hu] at h
    rw [List.cons_append, runInstrs, hu]
    exact ih h

theorem pollAll_cons (buf : List Byte) (rest : List (List Byte)) (s : State) :
    pollAll (buf :: rest) s = pollAll rest ((decodeBuffer buf).foldl (fun u sym => applySymbol P sym u) s) := by
  rw [pollAll, poll, runCommands_eq]

/-- The bytes of one snapshot and a FLUSH come to POLL of it, but for the window. -/
theorem runInstrs_snapshotEvents (buf : List Byte) {s : State} (hfill : s.fill = 0) (h0 : s.burstCnt = 0) :
    ∃ w, runInstrs (snapshotEvents buf) s =
      .next (((decodeBuffer buf).foldl (fun u sym => applySymbol P sym u) s).setCodec w 0) := by
  obtain ⟨w, f, hfold⟩ := foldl_receiveByte_eq_decodeBuffer P buf hfill h0
  refine ⟨w, ?_⟩
  rw [snapshotEvents, runInstrs_append (runInstrs_rxbytes buf s), hfold]
  rfl

/-- The two forms stay together, each with its own window (43_top_loop.md R204). -/
theorem runInstrs_snapshots (bs : List (List Byte)) (w : Window) {s : State} (h0 : s.burstCnt = 0) :
    ∃ u w', runInstrs (bs.flatMap snapshotEvents) (s.setCodec w 0) = .next (u.setCodec w' 0) ∧
      pollAll bs s = .next u ∧ u.burstCnt = 0 := by
  induction bs generalizing s w with
  | nil => exact ⟨s, w, rfl, rfl, h0⟩
  | cons buf rest ih =>
    obtain ⟨w1, hrun⟩ := runInstrs_snapshotEvents buf (s := s.setCodec w 0) rfl h0
    rw [foldl_applySymbol_setCodec] at hrun
    obtain ⟨u, w', hrest, hpoll, hidle⟩ := ih w1 (foldl_applySymbol_burstCnt P (decodeBuffer buf) h0)
    refine ⟨u, w', ?_, (pollAll_cons buf rest s).trans hpoll, hidle⟩
    rw [List.flatMap_cons, runInstrs_append hrun]
    exact hrest

end Sys2Proof.Machine

namespace Sys2Proof.Claims

open Sys2Proof.Machine

/-- Settles O21: POLL applies the symbols of `decode` (`runCommands_eq`), and the bytes apply the same
(`foldl_receiveByte_returned`). -/
theorem commandsAppliedInFrameOrder : Obligations.CommandsAppliedInFrameOrder := by
  refine ⟨fun buf s => ?_, fun buf s hfill => ?_⟩
  · obtain ⟨new, htrace, -, hsyms⟩ := foldl_applySymbol_shows P (decodeBuffer buf) s
    exact ⟨_, new, runCommands_eq _ s, htrace, hsyms⟩
  · obtain ⟨new, hnew⟩ := foldl_receiveByte_returned P buf hfill
    exact ⟨_, new, runInstrs_rxbytes buf s, hnew⟩

/-- Settles O43: by induction on the snapshots, the two states differ in the Codec's registers only
(`runInstrs_snapshots`). -/
theorem streamingAgreesWithTheLoop : Obligations.StreamingAgreesWithTheLoop := by
  intro bs s hfill h0
  obtain ⟨u, w, hrun, hpoll, hidle⟩ := runInstrs_snapshots bs s.window h0
  have hs : s.setCodec s.window 0 = s := by
    rw [← hfill]
    rfl
  rw [hs] at hrun
  exact ⟨_, u, hrun, hpoll, rfl, rfl, rfl, rfl, rfl, hidle, hidle⟩

end Sys2Proof.Claims
end

section
/-! SUPPORT. Back-pressure: when a byte is accepted, what an accepted byte leaves, and that a busy block accepts,
presents and issues nothing (43_top_loop.md R203, 10_state.md R32, 42_actuator.md R183). -/

namespace Sys2Proof.Machine

open Sys2Proof.Claims

/-! ## When a byte is accepted -/

theorem outputs_rxReady_iff {pins : Pins} {s : State} :
    (outputs pins s).rxReady = true ↔ pins.rst = false ∧ flushPin pins = false ∧ s.burstCnt = 0 := by
  simp [outputs, rxReady, busy, and_assoc]

theorem acceptedByte_codec (rst valid flush : Bool) (d : Byte) (s : State) :
    acceptedByte ⟨rst, .codec valid d flush⟩ s =
      if valid = true ∧ rst = false ∧ flush = false ∧ s.burstCnt = 0 then some d else none := by
  simp [acceptedByte, rxReady, flushPin, busy, and_assoc]

theorem acceptedByte_of_busy (pins : Pins) {s : State} (hbusy : s.burstCnt ≠ 0) : acceptedByte pins s = none :=
  Option.eq_none_iff_forall_ne_some.2 fun _ hd => hbusy (acceptedByte_eq_some.1 hd).2

/-! ## What a cycle leaves in the Codec -/

theorem clockCycle_codec_of_accepted (p : Params) {pins : Pins} {s : State} {b : Byte}
    (hacc : acceptedByte pins s = some b) :
    (clockCycle p pins s).window = s.window.shift b ∧
      (clockCycle p pins s).fill = (codecAccept s.window s.fill b).fill := by
  obtain ⟨-, hrst, -⟩ := byteCycle_of_accepted hacc
  rw [clockCycle_eq p pins s hrst, codecEdge_of_accepted hacc]
  exact ⟨rfl, rfl⟩

/-- `fill` after an accepted byte, by whether it completes a frame (40_frame_codec.md R108). -/
theorem codecAccept_fill_eq (w : Window) (f : Fin 9) (b : Byte) :
    ((7 ≤ f.val ∧ ∃ y : Symbol, (w.shift b).toList = frameOf y) → (codecAccept w f b).fill = 0) ∧
      (¬ (7 ≤ f.val ∧ ∃ y : Symbol, (w.shift b).toList = frameOf y) →
        (codecAccept w f b).fill.val = min (f.val + 1) 8) := by
  refine ⟨fun ⟨hfill, y, hframe⟩ => ?_, fun hno => ?_⟩
  · exact codecAccept_fill_of_emitted (codecAccept_emitted_eq_some.2 ⟨hfill, hframe⟩)
  · refine codecAccept_fill_of_not_emitted (Option.eq_none_iff_forall_ne_some.2 fun y hy => hno ?_)
    obtain ⟨hfill, hframe⟩ := codecAccept_emitted_eq_some.1 hy
    exact ⟨hfill, y, hframe⟩

theorem clockCycle_codec_of_no_byte (p : Params) {pins : Pins} {s : State} (hbyte : byteCycle pins = true)
    (hrst : pins.rst = false) (hacc : acceptedByte pins s = none) :
    (clockCycle p pins s).window = s.window ∧
      (clockCycle p pins s).fill = (if flushPin pins then 0 else s.fill) ∧
      (clockCycle p pins s).mstate = s.mstate := by
  obtain ⟨hw, hf, hm, -⟩ := clockCycle_of_no_byte p hbyte hrst hacc
  rw [tick_eq] at hw hm
  exact ⟨hw, hf, hm⟩

/-! ## While busy -/

theorem presentedCode_of_no_byte {pins : Pins} {s : State} (hbyte : byteCycle pins = true) (hrst : pins.rst = false)
    (hacc : acceptedByte pins s = none) : presentedCode pins s = none := by
  simp [presentedCode_of_byteCycle hbyte hrst, emittedSymbol, hacc]

theorem idle_of_commandCode {pins : Pins} {s : State} {c : Code} (hbyte : byteCycle pins = true)
    (hcmd : commandCode pins s = some c) : s.burstCnt = 0 := by
  by_contra hbusy
  rw [commandCode_of_byteCycle hbyte (rst_of_commandCode hcmd), actedCode_eq_none (.inr (.inl hbusy))] at hcmd
  cases hcmd

theorem outputs_rxReady_of_busy (pins : Pins) {s : State} (hbusy : s.burstCnt ≠ 0) :
    (outputs pins s).rxReady = false :=
  Bool.eq_false_iff.2 fun hready => hbusy (outputs_rxReady_iff.1 hready).2.2

end Sys2Proof.Machine

namespace Sys2Proof.Claims

open Sys2Proof.Machine

/-- Settles O39: acceptance is the equation of `rx_ready`; a byte accepted or not leaves the Codec as
`clockCycle_codec_of_accepted` and `clockCycle_codec_of_no_byte` say; and the burst of O40 keeps `rx_ready` at 0. -/
theorem backPressure : Obligations.BackPressure := by
  refine ⟨fun _ _ => outputs_rxReady_iff, acceptedByte_codec, ?accepted, ?notAccepted, ?busy,
    fun _ _ _ => idle_of_commandCode, ?burst⟩
  case accepted =>
    intro d s h0
    obtain ⟨hw, hf⟩ := clockCycle_codec_of_accepted P (acceptedByte_eq_some.2 ⟨rfl, h0⟩)
    dsimp only
    rw [hw, hf]
    exact ⟨rfl, codecAccept_fill_eq s.window s.fill d⟩
  case notAccepted =>
    intro rxValid d s hno
    have hacc : acceptedByte ⟨false, .codec rxValid d false⟩ s = none := by
      rw [acceptedByte_codec, if_neg]
      rintro ⟨hvalid, -, -, h0⟩
      rcases hno with hinvalid | hbusy
      · rw [hvalid] at hinvalid
        cases hinvalid
      · exact hbusy h0
    obtain ⟨hw, hf, -⟩ := clockCycle_codec_of_no_byte P rfl rfl hacc
    exact ⟨hw, hf⟩
  case busy =>
    intro pins s hbyte hrst hbusy
    have hacc := acceptedByte_of_busy pins hbusy
    obtain ⟨hw, -, hm⟩ := clockCycle_codec_of_no_byte P hbyte hrst hacc
    exact ⟨hacc, presentedCode_of_no_byte hbyte hrst hacc, hm, hw⟩
  case burst =>
    intro pins s m later next hbyte hcmd hrst hlen
    obtain ⟨hduring, -⟩ := burstTiming pins s m (idle_of_commandCode hbyte hcmd) hcmd
    obtain ⟨hcnt, -⟩ := hduring later hrst hlen
    exact outputs_rxReady_of_busy next (by omega)

end Sys2Proof.Claims
end

section
/-! SUPPORT. `fault` is sticky: whatever is taken while it is set leaves it set, unless RESET is asked for, by a port
event or by `rst` (60_exceptions.md R224, R228, 10_state.md R26). -/

namespace Sys2Proof.Machine

open Sys2Proof.Claims

/-- The input asks for RESET: the RESET bit of a port event (30_encoding.md R87), or the port `rst` of a clock cycle. -/
def asksReset : Input → Bool
  | .port e => e.getLsbD 10
  | .clock pins => pins.rst
  | .snapshot _ | .symbol _ | .actuator _ | .channel _ | .composed _ _ => false

theorem asksReset_iff {i : Input} : asksReset i = true ↔
    (∃ e, i = .port e ∧ e.getLsbD 10 = true) ∨ (∃ pins, i = .clock pins ∧ pins.rst = true) := by
  cases i <;> simp [asksReset]

/-- RESET has no word on the frame and the Actuator interface, and on the port interface only with its bit. -/
theorem asksReset_of_decodeInstr_reset {r : Raw} (h : decodeInstr r = .ok .reset) : asksReset r.toInput = true := by
  cases r with
  | frame f =>
    obtain ⟨sym, -, hsym⟩ := decodeInstr_frame_eq_ok.1 h
    cases sym <;> cases hsym
  | act c =>
    obtain ⟨q, -, hq⟩ := decodeInstr_act_eq_ok.1 h
    rcases q with m | _
    · cases m <;> cases hq
    · cases hq
  | port e =>
    rw [decodeInstr, decodePort_eq] at h
    split_ifs at h with hbit
    · exact hbit
    all_goals cases h

theorem exec_fault {i : Instr} {s t : State} (hi : i ≠ .reset) (he : exec i s = .next t) : t.fault = s.fault := by
  rcases instr_cases i with ⟨sym, rfl⟩ | ⟨q, rfl⟩ | rfl | rfl | ⟨b, rfl⟩
  · rw [exec_ofSymbol] at he
    cases he
    exact applySymbol_fault P sym s
  · rw [exec_ofPrimitive] at he
    cases he
    exact actuate_fault P q P.cruiseDuty s
  · exact absurd rfl hi
  · cases he
    rfl
  · cases he
    exact receiveByte_fault P b s

theorem takeInput_raw_fault {r : Raw} {s t : State} (hwf : r.wf = true) (hr : asksReset r.toInput = false)
    (h : takeInput r.toInput s = .next t) : t.fault = s.fault := by
  cases hdec : decodeInstr r with
  | ok i =>
    rw [takeInput_of_decodeInstr_ok hdec] at h
    refine exec_fault (fun hi => ?_) h
    subst hi
    rw [asksReset_of_decodeInstr_reset hdec] at hr
    cases hr
  | error e =>
    rw [takeInput_of_decodeInstr_error hwf hdec] at h
    cases h
    rfl

theorem foldl_applySymbol_fault (p : Params) (syms : List Symbol) (s : State) :
    (syms.foldl (fun u sym => applySymbol p sym u) s).fault = s.fault :=
  List.foldlRecOn (motive := fun u : State => u.fault = s.fault) syms _ rfl
    fun u hu sym _ => (applySymbol_fault p sym u).trans hu

theorem clockCycle_keeps_set_fault (p : Params) {pins : Pins} {s : State} (hrst : pins.rst = false)
    (hs : s.fault = true) : (clockCycle p pins s).fault = true := by
  obtain ⟨m, b, hedge, hb⟩ := motionEdge_eq pins s s
  rw [clockCycle_eq p pins s hrst, hedge]
  exact hb hs

theorem takeInput_keeps_set_fault {i : Input} {s t : State} (hi : asksReset i = false) (hs : s.fault = true)
    (h : takeInput i s = .next t) : t.fault = true := by
  cases i with
  | port e => exact (takeInput_raw_fault (r := .port e) rfl hi h).trans hs
  | actuator c => exact (takeInput_raw_fault (r := .act c) rfl hi h).trans hs
  | snapshot buf =>
    rw [takeInput, poll, runCommands_eq] at h
    cases h
    exact (foldl_applySymbol_fault P _ s).trans hs
  | symbol c =>
    rcases takeInput_symbol c s with ⟨sym, hsym⟩ | hraise
    · rw [hsym] at h
      cases h
      exact (applySymbol_fault P sym s).trans hs
    · rw [hraise] at h
      cases h
      rfl
  | channel c =>
    cases h
    exact (channelCall_fault P c s).trans hs
  | composed q d =>
    cases h
    exact (actuate_fault P q d s).trans hs
  | clock pins =>
    cases h
    exact clockCycle_keeps_set_fault P hi hs

end Sys2Proof.Machine

namespace Sys2Proof.Claims

open Sys2Proof.Machine

/-- Settles O23: with no input pending time passes, which leaves `fault`; and an input that does not ask for RESET
leaves a set `fault` set (`takeInput_keeps_set_fault`). -/
theorem faultClearedOnlyByReset : Obligations.FaultClearedOnlyByReset := by
  refine ⟨fun s t hs hstep ht => ?_, fun s => ⟨_, exec_reset s, resetBlock_fault s⟩⟩
  cases hin : s.input with
  | nil =>
    rw [step_nil s hin] at hstep
    cases hstep
    rw [tick_fault, hs] at ht
    cases ht
  | cons i rest =>
    rw [step_cons s i rest hin] at hstep
    have hi : asksReset i = true := by
      by_contra hno
      rw [takeInput_keeps_set_fault (s := s.setInput rest) (Bool.eq_false_iff.2 hno) hs hstep] at ht
      cases ht
    rcases asksReset_iff.1 hi with ⟨e, rfl, he⟩ | ⟨pins, rfl, hpins⟩
    · exact .inl ⟨e, rest, rfl, he⟩
    · exact .inr ⟨pins, rest, rfl, hpins⟩

end Sys2Proof.Claims
end

section
/-! SUPPORT. Reset and hazards: how close two symbols can come, what a block that is given no frame keeps, and what
RESET leaves whatever else drives the cycle (70_reset_and_hazards.md R250, R263, R265). -/

namespace Sys2Proof.Machine

open Sys2Proof.Claims

/-! ## The spacing of symbols (R265) -/

/-- A symbol takes eight bytes, so fewer hold none. -/
theorem decodeBuffer_eq_nil_of_short {buf : List Byte} (h : buf.length < 8) : decodeBuffer buf = [] := by
  have hlen : 8 * (decodeBuffer buf).length ≤ buf.length := scan_length_le buf.length buf 0
  exact List.eq_nil_of_length_eq_zero (by omega)

/-! ## A block with no burst in progress and no frame (R263) -/

theorem tick_of_idle (p : Params) {s : State} (h0 : s.burstCnt = 0) : tick p s = s := if_pos h0

/-- With no burst in progress a cycle that emits no symbol changes the Codec's registers only. -/
theorem clockCycle_of_not_emitted_idle (p : Params) {pins : Pins} {s : State} (hbyte : byteCycle pins = true)
    (hrst : pins.rst = false) (he : emittedSymbol pins s = none) (h0 : s.burstCnt = 0) :
    sameRegisters (clockCycle p pins s) (s.setCodec (codecEdge pins s).window (codecEdge pins s).fill) := by
  have h := clockCycle_of_not_emitted p hbyte hrst he
  rwa [tick_of_idle p h0] at h

theorem clockRun_idle_of_idle (p : Params) (n : Nat) {s : State} (h0 : s.burstCnt = 0) :
    sameRegisters (clockRun p (List.replicate n idlePins) s) s := by
  have h := clockRun_idle p n s
  rwa [Function.iterate_fixed (tick_of_idle p h0)] at h

/-! ## A cycle with `rst` (R250) -/

/-- `rst` beats whatever drives the cycle, so that one such cycle leaves the reset registers from any state. -/
theorem clockCycle_rst_sameRegisters (p : Params) {pins : Pins} (s : State) (hrst : pins.rst = true) :
    sameRegisters (clockCycle p pins s) State.reset := by
  rw [clockCycle_rst p pins s hrst]
  exact sameRegisters_refl State.reset

theorem clockCycle_rst_trace (p : Params) {pins : Pins} (s : State) (hrst : pins.rst = true) :
    (clockCycle p pins s).trace = s.trace ++ [.cycle (outputs pins s), .writeAll State.reset.duty] := by
  rw [clockCycle_rst p pins s hrst, resetBlock_trace, record_trace, List.append_assoc]
  rfl

/-- Under `rst` no code is presented and no command is driven, so that every strobe is 0. -/
theorem outputs_of_rst {pins : Pins} (s : State) (hrst : pins.rst = true) :
    (outputs pins s).rxReady = false ∧ (outputs pins s).sym = none ∧ (outputs pins s).changed = false ∧
      (outputs pins s).actCmd = none := by
  have hacted : actedCode pins s = none := actedCode_eq_none (.inl (if_pos hrst))
  exact ⟨by simp [outputs, rxReady, hrst], if_pos hrst, by simp [outputs, hacted], if_pos hrst⟩

/-- The last cycle of `rst` alone decides the registers. -/
theorem clockRun_rst_sameRegisters (p : Params) {ds : List Drive} (hds : ds ≠ []) (s : State) :
    sameRegisters (clockRun p (ds.map (Pins.mk true)) s) State.reset := by
  obtain ⟨init, d, rfl⟩ := (List.eq_nil_or_concat' ds).resolve_left hds
  rw [List.map_append, List.map_singleton, clockRun_snoc]
  exact clockCycle_rst_sameRegisters p _ rfl

end Sys2Proof.Machine

namespace Sys2Proof.Claims

open Sys2Proof.Machine

/-- Settles O9: from `fill` = 0 the Codec emits `decode` of its bytes, which has no symbol in fewer than eight and skips
noise. -/
theorem symbolsAreEightBytesApart : Obligations.SymbolsAreEightBytesApart := by
  refine ⟨fun w l hl => ?_, fun _ _ _ _ => codecAccept_fill_of_emitted, fun w noise s hnoise => ?_⟩
  · rw [codecFeed_eq_decodeBuffer, decodeBuffer_eq_nil_of_short hl]
  · rw [codecFeed_eq_decodeBuffer, decodeBuffer_noise_append hnoise, decodeBuffer_frameOf]

/-- Settles O42: with no burst in progress a tick changes nothing (`tick_of_idle`), and where no symbol is emitted a
cycle is no more than a tick and the Codec's edge. -/
theorem noWatchdog : Obligations.NoWatchdog := by
  refine ⟨fun pins s hbyte hrst he h0 => ?_, fun n _ h0 => clockRun_idle_of_idle P n h0, fun s h0 hin => ?_⟩
  · obtain ⟨-, -, hmstate, -, hduty, hcnt, -⟩ := clockCycle_of_not_emitted_idle P hbyte hrst he h0
    exact ⟨hmstate, hduty, hcnt.trans h0⟩
  · rw [step_nil s hin, tick_of_idle Config.params h0]

/-- Settles O12: RESET is `resetBlock`, and a cycle with `rst` is `resetBlock` after its ports are shown
(`clockCycle_rst`). -/
theorem resetResult : Obligations.ResetResult := by
  refine ⟨fun s => ?_, fun s d => ?_, fun s ds hds => clockRun_rst_sameRegisters P hds s⟩
  · exact ⟨_, exec_reset s, rfl, rfl, rfl, rfl, rfl, rfl, rfl, rfl, rfl⟩
  · exact ⟨clockCycle_rst_sameRegisters P s rfl, clockCycle_rst_trace P s rfl, outputs_of_rst s rfl⟩

end Sys2Proof.Claims
end
